-- ==== Sys2Proof/Word.lean ====
section
/-! DEFINITION. The word type of the machine and its plainest parts.

A word is one 16-bit value: the unit of memory, registers and instructions
(00_scope.md R9, R19). A character code is 8 bits wide (R9). A register index is a
3-bit field (R9, 10_state.md R20). -/

namespace Sys2Proof

/-- One 16-bit word; `+` and `-` on it are modulo 65536 (00_scope.md R12). -/
abbrev Word := BitVec 16

/-- One 8-bit character code (00_scope.md R9). -/
abbrev Byte := BitVec 8

/-- The 3-bit index that selects one of R0 to R7 (10_state.md R20). -/
abbrev RegIdx := BitVec 3

end Sys2Proof
end

