-- ==== Sys2Proof/Syntax.lean ====
section
/-! DEFINITION. The instructions, one constructor per row of spec/opcode_table.json.

The operands are the decoded fields of 30_encoding.md R70, each at its own width; the bits no
format names (R86) are no part of an instruction. The last seven constructors are the rows the
table marks as other names of TRAP and JMP words (R91); the core constructors `trap` and `jmp`
keep every operand value. -/

namespace Sys2Proof

inductive Instr where
  /-- BR (R75): the raw mask n, z, p and PCoffset9. -/
  | br (nzp : BitVec 3) (pcoffset9 : BitVec 9)
  /-- ADD in register mode (R72). -/
  | addReg (dr sr1 sr2 : RegIdx)
  /-- ADD in immediate mode (R73). -/
  | addImm (dr sr1 : RegIdx) (imm5 : BitVec 5)
  /-- LD (R79). -/
  | ld (dr : RegIdx) (pcoffset9 : BitVec 9)
  /-- ST (R79). -/
  | st (sr : RegIdx) (pcoffset9 : BitVec 9)
  /-- JSRR (R78). -/
  | jsrr (baser : RegIdx)
  /-- JSR (R77). -/
  | jsr (pcoffset11 : BitVec 11)
  /-- AND in register mode (R72). -/
  | andReg (dr sr1 sr2 : RegIdx)
  /-- AND in immediate mode (R73). -/
  | andImm (dr sr1 : RegIdx) (imm5 : BitVec 5)
  /-- LDR (R80). -/
  | ldr (dr baser : RegIdx) (offset6 : BitVec 6)
  /-- STR (R80). -/
  | str (sr baser : RegIdx) (offset6 : BitVec 6)
  /-- RTI (R82). -/
  | rti
  /-- NOT (R74). -/
  | not (dr sr : RegIdx)
  /-- LDI (R79). -/
  | ldi (dr : RegIdx) (pcoffset9 : BitVec 9)
  /-- STI (R79). -/
  | sti (sr : RegIdx) (pcoffset9 : BitVec 9)
  /-- JMP (R76). -/
  | jmp (baser : RegIdx)
  /-- RES (R82). -/
  | res
  /-- LEA (R79). -/
  | lea (dr : RegIdx) (pcoffset9 : BitVec 9)
  /-- TRAP (R81). -/
  | trap (trapvect8 : BitVec 8)
  /-- GETC: TRAP with vector 0x20 (R91, 44_trap.md R162). -/
  | getc
  /-- OUT: TRAP with vector 0x21 (R163). -/
  | out
  /-- PUTS: TRAP with vector 0x22 (R164). -/
  | puts
  /-- IN: TRAP with vector 0x23 (R165). -/
  | inp
  /-- PUTSP: TRAP with vector 0x24 (R166). -/
  | putsp
  /-- HALT: TRAP with vector 0x25 (R167). -/
  | halt
  /-- RET: JMP through R7 (R91, 42_control.md R132). -/
  | ret
  deriving DecidableEq, Repr

end Sys2Proof
end

