-- ==== Sys2Proof/WellFormed.lean ====
section
/-! DEFINITION. Which instruction terms are the decoding of a word.

Every field is a bit vector of its own width, so no operand is out of range. What is left to
check is that each word has ONE term: a TRAP word with a service's vector is that service's
own constructor, and a JMP word through R7 is RET (30_encoding.md R91). The two checks refuse
the second spelling of such a word. They say nothing about meaning: `exec` gives `trap` and
`jmp` their whole meaning for every operand. -/

namespace Sys2Proof

/-- The vectors that select a service (44_trap.md R161): 0x20 to 0x25. -/
def isServiceVector (v : BitVec 8) : Bool :=
  0x20#8 ≤ v && v ≤ 0x25#8

/-- The instruction is the one term of its word. -/
def Instr.wellFormed : Instr → Bool
  | .br _ _ => true
  | .addReg _ _ _ => true
  | .addImm _ _ _ => true
  | .ld _ _ => true
  | .st _ _ => true
  | .jsrr _ => true
  | .jsr _ => true
  | .andReg _ _ _ => true
  | .andImm _ _ _ => true
  | .ldr _ _ _ => true
  | .str _ _ _ => true
  | .rti => true
  | .not _ _ => true
  | .ldi _ _ => true
  | .sti _ _ => true
  | .jmp baser => baser != 7#3
  | .res => true
  | .lea _ _ => true
  | .trap v => !isServiceVector v
  | .getc => true
  | .out => true
  | .puts => true
  | .inp => true
  | .putsp => true
  | .halt => true
  | .ret => true

end Sys2Proof
end

