-- ==== Sys2Proof/Decode.lean ====
section
/-! DEFINITION. The instruction_decoder, and the encoder written from the same tables.

Decoding is a total function of the word (30_encoding.md R70, R87): `fields` extracts every
field, `opcodeOf` names the opcode, `select` picks the instruction, which uses only the fields
its format names (R86). No word is refused. -/

namespace Sys2Proof

/-- The 16 opcode values by name (R71). JSR and JSRR share one. -/
inductive Opcode where
  | br | add | ld | st | jsr | and | ldr | str
  | rti | not | ldi | sti | jmp | res | lea | trap
  deriving DecidableEq, Repr

/-- The assignment of R71, in the order of the values 0x0 to 0xF. PRESUMED by the spec itself
(general knowledge, D2; log entry 8). -/
def opcodes : Vector Opcode 16 :=
  #v[.br, .add, .ld, .st, .jsr, .and, .ldr, .str,
     .rti, .not, .ldi, .sti, .jmp, .res, .lea, .trap]

/-- The opcode that the field `ir[15:12]` names (R71). -/
def opcodeOf (op : BitVec 4) : Opcode := opcodes[op.toNat]

/-- The value of an opcode's field (R71), for the encoder. -/
def opcodeValue : Opcode → BitVec 4
  | .br => 0x0#4 | .add => 0x1#4 | .ld => 0x2#4 | .st => 0x3#4
  | .jsr => 0x4#4 | .and => 0x5#4 | .ldr => 0x6#4 | .str => 0x7#4
  | .rti => 0x8#4 | .not => 0x9#4 | .ldi => 0xA#4 | .sti => 0xB#4
  | .jmp => 0xC#4 | .res => 0xD#4 | .lea => 0xE#4 | .trap => 0xF#4

/-- The decoded record of R70 and R17: every field, whatever the opcode. -/
structure Decoded where
  op : BitVec 4
  dr : RegIdx
  sr1 : RegIdx
  sr2 : RegIdx
  immMode : BitVec 1
  imm5 : BitVec 5
  offset6 : BitVec 6
  pcoffset9 : BitVec 9
  pcoffset11 : BitVec 11
  nzp : BitVec 3
  jsrMode : BitVec 1
  baser : RegIdx
  trapvect8 : BitVec 8
  deriving DecidableEq, Repr

/-- The bit positions of R70. -/
def fields (ir : Word) : Decoded where
  op := ir.extractLsb' 12 4
  dr := ir.extractLsb' 9 3
  sr1 := ir.extractLsb' 6 3
  sr2 := ir.extractLsb' 0 3
  immMode := ir.extractLsb' 5 1
  imm5 := ir.extractLsb' 0 5
  offset6 := ir.extractLsb' 0 6
  pcoffset9 := ir.extractLsb' 0 9
  pcoffset11 := ir.extractLsb' 0 11
  nzp := ir.extractLsb' 9 3
  jsrMode := ir.extractLsb' 11 1
  baser := ir.extractLsb' 6 3
  trapvect8 := ir.extractLsb' 0 8

/-- JMP through R7 is the row RET (R91). -/
def selectJmp (baser : RegIdx) : Instr :=
  if baser = 7#3 then .ret else .jmp baser

/-- The trap rows by vector (44_trap.md R161, 30_encoding.md R91). -/
def selectTrap (v : BitVec 8) : Instr :=
  match v.toNat with
  | 0x20 => .getc
  | 0x21 => .out
  | 0x22 => .puts
  | 0x23 => .inp
  | 0x24 => .putsp
  | 0x25 => .halt
  | _ => .trap v

/-- The instruction of a decoded record (R71 to R82, the mode bits as R85 says). -/
def select (d : Decoded) : Instr :=
  match opcodeOf d.op with
  | .br => .br d.nzp d.pcoffset9
  | .add => if d.immMode = 0#1 then .addReg d.dr d.sr1 d.sr2 else .addImm d.dr d.sr1 d.imm5
  | .ld => .ld d.dr d.pcoffset9
  | .st => .st d.dr d.pcoffset9
  | .jsr => if d.jsrMode = 1#1 then .jsr d.pcoffset11 else .jsrr d.baser
  | .and => if d.immMode = 0#1 then .andReg d.dr d.sr1 d.sr2 else .andImm d.dr d.sr1 d.imm5
  | .ldr => .ldr d.dr d.baser d.offset6
  | .str => .str d.dr d.baser d.offset6
  | .rti => .rti
  | .not => .not d.dr d.sr1
  | .ldi => .ldi d.dr d.pcoffset9
  | .sti => .sti d.dr d.pcoffset9
  | .jmp => selectJmp d.baser
  | .res => .res
  | .lea => .lea d.dr d.pcoffset9
  | .trap => selectTrap d.trapvect8

/-- The instruction a word stands for; every word stands for one (R87, R89). -/
def decode (ir : Word) : Instr := select (fields ir)

/-- The opcode whose value an instruction's word carries (R71). -/
def Instr.opcode : Instr → Opcode
  | .br _ _ => .br
  | .addReg _ _ _ => .add
  | .addImm _ _ _ => .add
  | .ld _ _ => .ld
  | .st _ _ => .st
  | .jsrr _ => .jsr
  | .jsr _ => .jsr
  | .andReg _ _ _ => .and
  | .andImm _ _ _ => .and
  | .ldr _ _ _ => .ldr
  | .str _ _ _ => .str
  | .rti => .rti
  | .not _ _ => .not
  | .ldi _ _ => .ldi
  | .sti _ _ => .sti
  | .jmp _ => .jmp
  | .res => .res
  | .lea _ _ => .lea
  | .trap _ => .trap
  | .getc => .trap
  | .out => .trap
  | .puts => .trap
  | .inp => .trap
  | .putsp => .trap
  | .halt => .trap
  | .ret => .jmp

/-- A field at the bit positions from `lo` up, every other bit zero (R11). -/
def place {n : Nat} (lo : Nat) (f : BitVec n) : Word := f.setWidth 16 <<< lo

/-- The operand fields of an instruction's word, each at the position its format gives it (R72
to R82). Ignored bits are written as R90 writes them: ones in NOT, zeros elsewhere. -/
def Instr.operandBits : Instr → Word
  | .br nzp off => place 9 nzp ||| place 0 off
  | .addReg dr sr1 sr2 => place 9 dr ||| place 6 sr1 ||| place 5 0#1 ||| place 0 sr2
  | .addImm dr sr1 imm => place 9 dr ||| place 6 sr1 ||| place 5 1#1 ||| place 0 imm
  | .ld dr off => place 9 dr ||| place 0 off
  | .st sr off => place 9 sr ||| place 0 off
  | .jsrr base => place 11 0#1 ||| place 6 base
  | .jsr off => place 11 1#1 ||| place 0 off
  | .andReg dr sr1 sr2 => place 9 dr ||| place 6 sr1 ||| place 5 0#1 ||| place 0 sr2
  | .andImm dr sr1 imm => place 9 dr ||| place 6 sr1 ||| place 5 1#1 ||| place 0 imm
  | .ldr dr base off => place 9 dr ||| place 6 base ||| place 0 off
  | .str sr base off => place 9 sr ||| place 6 base ||| place 0 off
  | .rti => 0x0000#16
  | .not dr sr => place 9 dr ||| place 6 sr ||| place 0 0b111111#6
  | .ldi dr off => place 9 dr ||| place 0 off
  | .sti sr off => place 9 sr ||| place 0 off
  | .jmp base => place 6 base
  | .res => 0x0000#16
  | .lea dr off => place 9 dr ||| place 0 off
  | .trap v => place 0 v
  | .getc => place 0 0x20#8
  | .out => place 0 0x21#8
  | .puts => place 0 0x22#8
  | .inp => place 0 0x23#8
  | .putsp => place 0 0x24#8
  | .halt => place 0 0x25#8
  | .ret => place 6 7#3

/-- The canonical word of an instruction. -/
def encode (i : Instr) : Word := place 12 (opcodeValue i.opcode) ||| i.operandBits

/-- The instruction the decoder reads from `nbits` bits of a table row, numbered as
spec/opcode_table.json numbers them. A word here IS the table's number (R11), every instruction
is one word (R70, R88), and the bits above `nbits` are zero. -/
def decodeTableWord (nbits w : Nat) : Option Instr :=
  if nbits ≤ 16 then some (decode (BitVec.ofNat 16 (w % 2 ^ nbits))) else none

end Sys2Proof
end

