-- ==== Sys2Proof/Config.lean ====
section
/-! DEFINITION. What one implementation fixes and the spec leaves open (00_scope.md R10).

Three of the four open parameters of R10 are constants without a body: nothing can be proved
of their value, so a statement about them holds for every value (log entries 2 and 3). The
fourth, `gpr_reset`, is the argument of `State.resetWith`; `State.reset` takes the value
named here (log entry 1). -/

namespace Sys2Proof.Config

/-- `IN_PROMPT` (R10, D15): the codes the IN service writes before it reads. -/
opaque inPrompt : List Byte

/-- `HALT_NOTICE` (R10, D16): the codes the HALT service writes before it stops the core. -/
opaque haltNotice : List Byte

/-- `TRAP_STR_DEVICE_READ` (R10, D8): whether PUTS and PUTSP read memory through the
side-effecting device read. -/
opaque trapStrDeviceRead : Bool

/-- `gpr_reset` as `State.reset` takes it. DESIGN CHOICE (unsafe; log entry 1): the spec gives
no reset value for R0 to R7, and this model names zero. -/
def gprReset : Vector Word 8 := Vector.replicate 8 0x0000#16

end Sys2Proof.Config
end

