-- ==== Sys2Proof/Machine/State.lean ====
section
/-! DEFINITION. The state of one CORE instance, its stops, and the state after reset.

The fields are the elements of 10_state.md R37, and nothing else: `ir` is not kept between
steps (R34), and the CORE has no other register (R32, R38). KBSR and KBDR are cells of `mem`
(R29). -/

namespace Sys2Proof.Machine

/-- The condition code: exactly one of three values (10_state.md R26). -/
inductive Cond where
  | neg | zero | pos
  deriving DecidableEq, Repr

/-- `await_input` (10_state.md R35): which service, if any, waits for a character. -/
inductive Await where
  | none | getc | inp
  deriving DecidableEq, Repr

/-- The memory array (10_state.md R28) as the list of its cells that do not hold 0x0000, by
rising address. A cell is one 16-bit word, the smallest unit the machine addresses
(20_memory.md R40; log entry 7). `Memory.wf` is the canonical form. -/
abbrev Memory := List (Nat × Word)

/-- Everything the spec gives one CORE instance (10_state.md R37). -/
structure State where
  /-- R0 to R7 (R20). -/
  regs : Vector Word 8
  /-- The program counter (R23). -/
  pc : Word
  /-- The condition code (R26). -/
  cond : Cond
  /-- The running flag (R33). -/
  running : Bool
  /-- The memory array, KBSR and KBDR among its cells (R28, R29). -/
  mem : Memory
  /-- The pending wait for input (R35). -/
  awaitInput : Await
  /-- The characters the host has supplied and the CORE has not read, head first (R36). -/
  input : List Byte
  /-- Every code passed to WriteChar, in order (R36). -/
  output : List Byte
  deriving DecidableEq, Repr

/-- Why a step gives no next state: the outcomes of 60_exceptions.md R191. -/
inductive Fault where
  /-- `Halted`: `step` raises it when `running` is false. Final (40_cycle.md R104, R191). Safe:
  the CORE has no step there. -/
  | halted
  /-- `AwaitInput`: `step` raises it while GETC or IN waits and `input` is empty (44_trap.md
  R171). The state is left as it is, and the host lifts the wait by appending a character.
  Safe: the CORE has no step there. -/
  | awaitInput
  /-- `StringUnterminated`: PUTS and PUTSP raise it when 65536 words hold no terminator and
  `TRAP_STR_DEVICE_READ` is false (44_trap.md R170). Safe: the hardware never completes. -/
  | stringUnterminated
  deriving DecidableEq, Repr

/-- Reasons an instruction has no meaning. -/
inductive Refusal where
  /-- Raised by nothing: every instruction of the table has its meaning. Safe. -/
  | notModelled (mnemonic : String)
  deriving DecidableEq, Repr

/-- `LoadError` (70_reset_and_hazards.md R215), with the reason the loader refuses an image.
`boot` raises it, before any run starts. Safe. -/
inductive LoadError where
  /-- The file cannot be opened or read. -/
  | unreadable
  /-- Fewer than two bytes: there is no origin word. -/
  | noOrigin
  /-- An odd number of bytes. -/
  | oddLength
  /-- More words than fit before address 65536. -/
  | tooLong
  deriving DecidableEq, Repr

/-- The machine right after reset (10_state.md R37, 70_reset_and_hazards.md R210), with the
open parameter `gpr_reset` and what the host has supplied as arguments, and no image loaded. -/
def State.resetWith (gpr : Vector Word 8) (input : List Byte) : State where
  regs := gpr
  pc := 0x3000#16
  cond := .zero
  running := true
  mem := []
  awaitInput := .none
  input := input
  output := []

/-- The machine right after reset, with the model's own choice of `gpr_reset` (log entry 1)
and no input supplied yet (log entry 6). -/
def State.reset : State := State.resetWith Config.gprReset []

end Sys2Proof.Machine
end

