-- ==== Sys2Proof/Machine/Flags.lean ====
section
/-! DEFINITION. The condition_code_unit: SetFlags and the branch test. -/

namespace Sys2Proof.Machine

/-- The one-hot code of a condition (10_state.md R26, the spec's decision D3; log entry 10). -/
def Cond.code : Cond → BitVec 3
  | .neg => 0b100#3
  | .zero => 0b010#3
  | .pos => 0b001#3

/-- The condition of a value (40_cycle.md R106): bit 15 is the sign. -/
def condOf (v : Word) : Cond :=
  if v = 0x0000#16 then .zero else if v.msb then .neg else .pos

/-- `SetFlags(v)` (R106). -/
def State.setFlags (s : State) (v : Word) : State := { s with cond := condOf v }

/-- `BranchTaken(nzp)` (R108). -/
def branchTaken (nzp : BitVec 3) (c : Cond) : Bool := nzp &&& c.code != 0b000#3

end Sys2Proof.Machine
end

