-- ==== Sys2Proof/Machine/Ops.lean ====
section
/-! DEFINITION. The shared operations: register_file, memory_interface, the console
primitives, fetch_unit, and trap entry. -/

namespace Sys2Proof.Machine

/-! ### Extension of a field to a word -/

/-- `sext_N(v)` (00_scope.md R13). -/
def sext {n : Nat} (v : BitVec n) : Word := v.signExtend 16

/-- `zext_8(c)` (R13). -/
def zext8 (c : Byte) : Word := c.setWidth 16

/-- `w[7:0]`. -/
def lowByte (w : Word) : Byte := w.extractLsb' 0 8

/-- `w[15:8]`. -/
def highByte (w : Word) : Byte := w.extractLsb' 8 8

/-! ### Registers (10_state.md R20: none is hardwired, none overlaps another) -/

/-- `x[i]` (00_scope.md R14). -/
def State.reg (s : State) (i : RegIdx) : Word := s.regs[i.toNat]

/-- `x[i] <- v` (R14). -/
def State.setReg (s : State) (i : RegIdx) (v : Word) : State :=
  { s with regs := s.regs.set i.toNat v }

/-- Write a result to DR, then `SetFlags` on the value written (41_operate.md R120). -/
def State.setRegFlags (s : State) (i : RegIdx) (v : Word) : State :=
  (s.setReg i v).setFlags v

/-- `pc <- target` (R14). -/
def State.jump (s : State) (target : Word) : State := { s with pc := target }

/-! ### Memory -/

/-- The word at an address; an unlisted cell holds 0x0000 (10_state.md R28). -/
def Memory.read : Memory → Nat → Word
  | [], _ => 0x0000#16
  | (k, v) :: rest, a => if k = a then v else Memory.read rest a

/-- Put a cell in at its place by address. -/
def Memory.insert : Memory → Nat → Word → Memory
  | [], a, v => [(a, v)]
  | (k, w) :: rest, a, v =>
    if a < k then (a, v) :: (k, w) :: rest else (k, w) :: Memory.insert rest a v

/-- The memory with one cell replaced. A cell that holds 0x0000 is not listed. -/
def Memory.write (m : Memory) (a : Nat) (v : Word) : Memory :=
  let rest := m.filter (fun c => c.1 != a)
  if v = 0x0000#16 then rest else Memory.insert rest a v

/-- `Stored(addr)`: the raw cell, no side effect (00_scope.md R14). -/
def State.stored (s : State) (a : Word) : Word := s.mem.read a.toNat

/-- `MemWrite(addr, 1, v)`: a pure store at every address (20_memory.md R45). -/
def State.memWrite (s : State) (a v : Word) : State :=
  { s with mem := s.mem.write a.toNat v }

/-! ### The device registers -/

/-- KBSR's address (10_state.md R29; general knowledge by the spec's own mark, D4; log entry 9). -/
def kbsrAddr : Word := 0xFE00#16

/-- KBDR's address (R29; log entry 9). -/
def kbdrAddr : Word := 0xFE02#16

/-- What a poll that finds a key leaves in KBSR: only the top bit set (20_memory.md R43). -/
def keyReady : Word := 0x8000#16

/-- KBSR, a cell of the memory array (10_state.md R30). -/
def State.kbsr (s : State) : Word := s.stored kbsrAddr

/-- KBDR, a cell of the memory array (10_state.md R31). -/
def State.kbdr (s : State) : Word := s.stored kbdrAddr

/-- `Poll()`: true exactly when `input` is not empty (20_memory.md R43). -/
def State.poll (s : State) : Bool := !s.input.isEmpty

/-- `ReadChar()` (00_scope.md R15): the head of `input` and the state without it, or `none`
where the read would block (44_trap.md R171). -/
def State.readChar (s : State) : Option (Byte × State) :=
  match s.input with
  | [] => none
  | c :: rest => some (c, { s with input := rest })

/-- `DevicePoll()` (20_memory.md R43): it never blocks (90_conflicts.md C2). -/
def State.devicePoll (s : State) : State :=
  match s.readChar with
  | some (c, s1) => (s1.memWrite kbsrAddr keyReady).memWrite kbdrAddr (zext8 c)
  | none => s.memWrite kbsrAddr 0x0000#16

/-- `MemRead(addr, 1)` (20_memory.md R42): the value read, and the state after the read. -/
def State.memRead (s : State) (a : Word) : Word × State :=
  let s1 := if a = kbsrAddr then s.devicePoll else s
  (s1.stored a, s1)

/-! ### Console output -/

/-- `WriteChar(c)` (00_scope.md R15). -/
def State.writeChar (s : State) (c : Byte) : State := { s with output := s.output ++ [c] }

/-- `WriteChar` of each code in turn. -/
def State.writeChars (s : State) (cs : List Byte) : State := { s with output := s.output ++ cs }

/-! ### Fetch and trap entry -/

/-- fetch_unit (40_cycle.md R101): read the word at `pc` through `MemRead`, then increment
`pc`, modulo 65536. -/
def State.fetch (s : State) : Word × State :=
  let r := s.memRead s.pc
  (r.1, r.2.jump (s.pc + 1#16))

/-- `x[7] <- pc`: the return address of JSR, JSRR and TRAP (40_cycle.md R103). -/
def State.link (s : State) : State := s.setReg 7#3 s.pc

/-- Trap entry (44_trap.md R172, 60_exceptions.md R194): it saves the return address in R7 and
nothing else, and changes no mode, mask or `cond`. There is no return beside it: the service is
part of the instruction, and `pc` is already the address of the next one (R195). -/
def State.trapEntry (s : State) : State := s.link

/-! ### The host's side -/

/-- The host appends characters to `input` between two steps (20_memory.md R53). -/
def State.hostAppend (s : State) (cs : List Byte) : State := { s with input := s.input ++ cs }

/-- The canonical form of memory: addresses strictly rising and below 65536, and no listed cell
equal to what an unlisted one reads as. -/
def Memory.wf : Memory → Bool
  | [] => true
  | (k, v) :: rest => k < 65536 && v != 0x0000#16 && rest.all (fun c => k < c.1) && Memory.wf rest

end Sys2Proof.Machine
end

