-- ==== Sys2Proof/Machine/Operands.lean ====
section
/-! DEFINITION. Every operand form: effective addresses and second operands.

All in 16-bit arithmetic, modulo 65536 (20_memory.md R59). `s.pc` is the incremented value
`A + 1` here (40_cycle.md R103). -/

namespace Sys2Proof.Machine

/-- PC-relative with a 9-bit offset: `pc + sext_9(ir[8:0])` (43_load_store.md R140). -/
def State.pcRel9 (s : State) (off : BitVec 9) : Word := s.pc + sext off

/-- PC-relative with an 11-bit offset (42_control.md R133). -/
def State.pcRel11 (s : State) (off : BitVec 11) : Word := s.pc + sext off

/-- Base + offset: `x[baser] + sext_6(ir[5:0])` (43_load_store.md R140). -/
def State.baseOff6 (s : State) (base : RegIdx) (off : BitVec 6) : Word :=
  s.reg base + sext off

/-- Indirect: the pointer is a real read, which can poll the keyboard (43_load_store.md R140,
R142, R146). The pointer, and the state after that read. -/
def State.indirect9 (s : State) (off : BitVec 9) : Word × State := s.memRead (s.pcRel9 off)

end Sys2Proof.Machine
end

