-- ==== Sys2Proof/Machine/Control.lean ====
section
/-! DEFINITION. BR, JMP (and RET), JSR and JSRR (42_control.md). None writes `cond` (R130). -/

namespace Sys2Proof.Machine

/-- BR (R131). -/
def execBr (nzp : BitVec 3) (off : BitVec 9) (s : State) : Host.Outcome State Fault Refusal :=
  .next (if branchTaken nzp s.cond then s.jump (s.pcRel9 off) else s)

/-- JMP (R132). -/
def execJmp (base : RegIdx) (s : State) : Host.Outcome State Fault Refusal :=
  .next (s.jump (s.reg base))

/-- RET: JMP through R7 (R132, 30_encoding.md R91). -/
def execRet (s : State) : Host.Outcome State Fault Refusal :=
  .next (s.jump (s.reg 7#3))

/-- JSR (R133). -/
def execJsr (off : BitVec 11) (s : State) : Host.Outcome State Fault Refusal :=
  .next (s.link.jump (s.pcRel11 off))

/-- JSRR (R134): BaseR is read after R7 is written (the spec's decision D9; log entry 12). -/
def execJsrr (base : RegIdx) (s : State) : Host.Outcome State Fault Refusal :=
  .next (s.link.jump (s.link.reg base))

end Sys2Proof.Machine
end

