-- ==== Sys2Proof/Machine/LoadStore.lean ====
section
/-! DEFINITION. LD, LDI, LDR, LEA, ST, STI and STR (43_load_store.md). Loads set the flags on
the loaded value; stores leave `cond` alone (R140). -/

namespace Sys2Proof.Machine

/-- Read memory at `ea` into DR and set the flags (R140). -/
def State.load (s : State) (dr : RegIdx) (ea : Word) : State :=
  (s.memRead ea).2.setRegFlags dr (s.memRead ea).1

/-- LD (R141). -/
def execLd (dr : RegIdx) (off : BitVec 9) (s : State) : Host.Outcome State Fault Refusal :=
  .next (s.load dr (s.pcRel9 off))

/-- LDI (R142): the pointer read comes first, the data read second. -/
def execLdi (dr : RegIdx) (off : BitVec 9) (s : State) : Host.Outcome State Fault Refusal :=
  .next ((s.indirect9 off).2.load dr (s.indirect9 off).1)

/-- LDR (R143). -/
def execLdr (dr base : RegIdx) (off : BitVec 6) (s : State) :
    Host.Outcome State Fault Refusal :=
  .next (s.load dr (s.baseOff6 base off))

/-- LEA (R144): the address, and no memory access. -/
def execLea (dr : RegIdx) (off : BitVec 9) (s : State) : Host.Outcome State Fault Refusal :=
  .next (s.setRegFlags dr (s.pcRel9 off))

/-- ST (R145). -/
def execSt (sr : RegIdx) (off : BitVec 9) (s : State) : Host.Outcome State Fault Refusal :=
  .next (s.memWrite (s.pcRel9 off) (s.reg sr))

/-- STI (R146): the pointer read may poll; the write is a plain store. -/
def execSti (sr : RegIdx) (off : BitVec 9) (s : State) : Host.Outcome State Fault Refusal :=
  .next ((s.indirect9 off).2.memWrite (s.indirect9 off).1 (s.reg sr))

/-- STR (R147). -/
def execStr (sr base : RegIdx) (off : BitVec 6) (s : State) :
    Host.Outcome State Fault Refusal :=
  .next (s.memWrite (s.baseOff6 base off) (s.reg sr))

end Sys2Proof.Machine
end

