-- ==== Sys2Proof/Machine/Operate.lean ====
section
/-! DEFINITION. ADD, AND and NOT (41_operate.md). Sources are read before DR is written, and
`cond` follows the value written (R120). -/

namespace Sys2Proof.Machine

/-- ADD, register mode (R121). -/
def execAddReg (dr sr1 sr2 : RegIdx) (s : State) : Host.Outcome State Fault Refusal :=
  .next (s.setRegFlags dr (s.reg sr1 + s.reg sr2))

/-- ADD, immediate mode (R121). -/
def execAddImm (dr sr1 : RegIdx) (imm5 : BitVec 5) (s : State) :
    Host.Outcome State Fault Refusal :=
  .next (s.setRegFlags dr (s.reg sr1 + sext imm5))

/-- AND, register mode (R122). -/
def execAndReg (dr sr1 sr2 : RegIdx) (s : State) : Host.Outcome State Fault Refusal :=
  .next (s.setRegFlags dr (s.reg sr1 &&& s.reg sr2))

/-- AND, immediate mode: the immediate is sign-extended (R122). -/
def execAndImm (dr sr1 : RegIdx) (imm5 : BitVec 5) (s : State) :
    Host.Outcome State Fault Refusal :=
  .next (s.setRegFlags dr (s.reg sr1 &&& sext imm5))

/-- NOT (R123). -/
def execNot (dr sr : RegIdx) (s : State) : Host.Outcome State Fault Refusal :=
  .next (s.setRegFlags dr (~~~s.reg sr))

end Sys2Proof.Machine
end

