-- ==== Sys2Proof/Machine/Reserved.lean ====
section
/-! DEFINITION. RTI and RES (45_reserved.md): no state changes but the fetch's `pc` (R182). -/

namespace Sys2Proof.Machine

/-- RTI (R180): it restores nothing. -/
def execRti (s : State) : Host.Outcome State Fault Refusal := .next s

/-- RES (R181). -/
def execRes (s : State) : Host.Outcome State Fault Refusal := .next s

end Sys2Proof.Machine
end

