-- ==== Sys2Proof/Machine/Trap.lean ====
section
/-! DEFINITION. TRAP and the trap_dispatcher (44_trap.md). Every form first makes the trap
entry (R160), then runs the service its vector selects (R161). -/

namespace Sys2Proof.Machine

/-! ### Reading a string -/

/-- `StrRead(addr)` (20_memory.md R58). The two readings differ at 0xFE00 only, so the open
parameter is asked there only (log entry 3). -/
def State.strRead (s : State) (a : Word) : Word × State :=
  if a = kbsrAddr then
    (if Config.trapStrDeviceRead then s.memRead a else (s.stored a, s))
  else (s.stored a, s)

/-- What PUTS writes for a word: nothing more at a zero word, else its low byte (R164). -/
def putsChars (w : Word) : Option (List Byte) :=
  if w = 0x0000#16 then none else some [lowByte w]

/-- What PUTSP writes for a word: nothing more where the low byte is zero, else the low byte
and then the high byte if it is not zero (R166, 90_conflicts.md C10). -/
def putspChars (w : Word) : Option (List Byte) :=
  if lowByte w = 0x00#8 then none
  else some (if highByte w = 0x00#8 then [lowByte w] else [lowByte w, highByte w])

/-- Scan up to `n` words from `a` on. `chars` answers what a word makes the service write, or
`none` for the terminator. The second part is the state reached; the first says whether the
terminator was read. -/
def scanWords (chars : Word → Option (List Byte)) : Nat → Word → State → Bool × State
  | 0, _, s => (false, s)
  | n + 1, a, s =>
    match chars (s.strRead a).1 with
    | none => (true, (s.strRead a).2)
    | some cs => scanWords chars n (a + 1#16) ((s.strRead a).2.writeChars cs)

/-- A string scan (R170), by passes over the whole of memory: 65536 words, which end at the
address they began at. Without the device read no cell changes during the scan, so one pass
without a terminator is a scan that never ends. With it the scan goes on; each such pass reads
KBSR and takes a character from `input`, so `passes` beyond the length of `input` are never
used up (log entry 4). -/
def scanString (chars : Word → Option (List Byte)) :
    Nat → Word → State → Host.Outcome State Fault Refusal
  | 0, _, _ => .fault .stringUnterminated
  | passes + 1, a, s =>
    if (scanWords chars 65536 a s).1 then .next (scanWords chars 65536 a s).2
    else if Config.trapStrDeviceRead then
      scanString chars passes a (scanWords chars 65536 a s).2
    else .fault .stringUnterminated

/-- The scan of PUTS and PUTSP from the address in R0, which sees the value R0 had before the
TRAP (R160). -/
def writeString (chars : Word → Option (List Byte)) (s : State) :
    Host.Outcome State Fault Refusal :=
  scanString chars (s.input.length + 1) (s.reg 0#3) s

/-! ### The services, after the trap entry -/

/-- `R0 <- zext_8(c)` and `SetFlags` on it: how GETC and IN deliver a character (R162, R165). -/
def State.deliver (s : State) (c : Byte) : State := s.setRegFlags 0#3 (zext8 c)

/-- GETC from its `ReadChar()` on (R162, R171): deliver a character, or wait for one. -/
def State.getcRead (s : State) : State :=
  match s.readChar with
  | some (c, s1) => { s1.deliver c with awaitInput := .none }
  | none => { s with awaitInput := .getc }

/-- IN from its `ReadChar()` on (R165, R171): echo and deliver a character, or wait for one. -/
def State.inRead (s : State) : State :=
  match s.readChar with
  | some (c, s1) => { (s1.writeChar c).deliver c with awaitInput := .none }
  | none => { s with awaitInput := .inp }

/-- GETC (R162). -/
def getcService (s : State) : Host.Outcome State Fault Refusal := .next s.getcRead

/-- OUT (R163): the low 8 bits of R0. -/
def outService (s : State) : Host.Outcome State Fault Refusal :=
  .next (s.writeChar (lowByte (s.reg 0#3)))

/-- PUTS (R164). -/
def putsService (s : State) : Host.Outcome State Fault Refusal := writeString putsChars s

/-- IN (R165): the prompt is written before the wait. -/
def inService (s : State) : Host.Outcome State Fault Refusal :=
  .next (s.writeChars Config.inPrompt).inRead

/-- PUTSP (R166). -/
def putspService (s : State) : Host.Outcome State Fault Refusal := writeString putspChars s

/-- HALT (R167): the notice, then the running flag. -/
def haltService (s : State) : Host.Outcome State Fault Refusal :=
  .next { s.writeChars Config.haltNotice with running := false }

/-- An unknown vector: nothing (R168). -/
def unknownService (s : State) : Host.Outcome State Fault Refusal := .next s

/-- `Dispatch(v)` (R161). -/
def trapDispatch (v : BitVec 8) (s : State) : Host.Outcome State Fault Refusal :=
  match v.toNat with
  | 0x20 => getcService s
  | 0x21 => outService s
  | 0x22 => putsService s
  | 0x23 => inService s
  | 0x24 => putspService s
  | 0x25 => haltService s
  | _ => unknownService s

/-! ### The instructions -/

/-- TRAP (R160). -/
def execTrap (v : BitVec 8) (s : State) : Host.Outcome State Fault Refusal :=
  trapDispatch v s.trapEntry

/-- TRAP x20 (R162). -/
def execGetc (s : State) : Host.Outcome State Fault Refusal := getcService s.trapEntry

/-- TRAP x21 (R163). -/
def execOut (s : State) : Host.Outcome State Fault Refusal := outService s.trapEntry

/-- TRAP x22 (R164). -/
def execPuts (s : State) : Host.Outcome State Fault Refusal := putsService s.trapEntry

/-- TRAP x23 (R165). -/
def execIn (s : State) : Host.Outcome State Fault Refusal := inService s.trapEntry

/-- TRAP x24 (R166). -/
def execPutsp (s : State) : Host.Outcome State Fault Refusal := putspService s.trapEntry

/-- TRAP x25 (R167). -/
def execHalt (s : State) : Host.Outcome State Fault Refusal := haltService s.trapEntry

/-! ### The wait -/

/-- What happens while `await_input` is set (40_cycle.md R100, 44_trap.md R171): nothing while
`input` is empty; else the service goes on from its `ReadChar()` to its end. -/
def resumeWait (s : State) : Host.Outcome State Fault Refusal :=
  if s.poll then
    match s.awaitInput with
    | .none => .next s
    | .getc => .next s.getcRead
    | .inp => .next s.inRead
  else .fault .awaitInput

end Sys2Proof.Machine
end

