-- ==== Sys2Proof/Machine/Step.lean ====
section
/-! DEFINITION. One step (40_cycle.md R100, R104, R112). -/

namespace Sys2Proof.Machine

/-- One step: none when HALTED; the rest of a waiting GETC or IN when one waits; else fetch,
decode and execute one whole instruction. -/
def step (s : State) : Host.Outcome State Fault Refusal :=
  if s.running then
    match s.awaitInput with
    | .none => exec (decode s.fetch.1) s.fetch.2
    | .getc => resumeWait s
    | .inp => resumeWait s
  else .fault .halted

/-- `s` with the word of `nbits` bits stored where `step` fetches next (log entry 21). A fetch
from 0xFE00 polls and replaces the cell, so there the pc moves to the start address; a halted
or waiting machine is set running. -/
def State.withFetchWord (s : State) (nbits w : Nat) : State :=
  let a : Word := if s.pc = kbsrAddr then 0x3000#16 else s.pc
  { s.memWrite a (BitVec.ofNat 16 (w % 2 ^ nbits)) with
    pc := a, running := true, awaitInput := .none }

end Sys2Proof.Machine
end

