-- ==== Sys2Proof/Machine/Image.lean ====
section
/-! DEFINITION. The Image Loader and the start of a run (70_reset_and_hazards.md R210 to R216).

The loader writes the array directly: no device poll (R214). -/

namespace Sys2Proof.Machine

/-- A word of the byte stream, big-endian (R214). -/
def bigEndian (hi lo : Byte) : Word := hi ++ lo

/-- The words of a byte stream of even length. -/
def imageWords : List Byte → List Word
  | hi :: lo :: rest => bigEndian hi lo :: imageWords rest
  | _ => []

/-- Words at consecutive cells from `k` on. -/
def placeWords : Memory → Nat → List Word → Memory
  | m, _, [] => m
  | m, k, w :: ws => placeWords (m.write k w) (k + 1) ws

/-- `LoadImage` (R214, R215). -/
def loadImage (bytes : List Byte) (m : Memory) : Except LoadError Memory :=
  if bytes.length % 2 = 1 then
    (if bytes.length < 2 then .error .noOrigin else .error .oddLength)
  else
    match imageWords bytes with
    | [] => .error .noOrigin
    | origin :: data =>
      if origin.toNat + data.length ≤ 65536 then .ok (placeWords m origin.toNat data)
      else .error .tooLong

/-- Several images, in the order given (R216). A file that cannot be read is `none` (R215). -/
def loadImages : List (Option (List Byte)) → Memory → Except LoadError Memory
  | [], m => .ok m
  | none :: _, _ => .error .unreadable
  | some bytes :: rest, m =>
    match loadImage bytes m with
    | .ok m1 => loadImages rest m1
    | .error e => .error e

/-- Reset and load (R210): the state in which the first step fetches, or `LoadError` and no
run. -/
def boot (gpr : Vector Word 8) (input : List Byte) (images : List (Option (List Byte))) :
    Except LoadError State :=
  match loadImages images [] with
  | .ok m => .ok { State.resetWith gpr input with mem := m }
  | .error e => .error e

end Sys2Proof.Machine
end

