-- ==== Sys2Proof/Safety.lean ====
section
/-! DEFINITION. The terms claims use: runs, the end of a run, the invariant, and what an
instruction may touch, written from the spec's tables and not from the meanings. -/

namespace Sys2Proof.Machine

/-! ### Runs -/

/-- A run of the CORE with its host: CORE steps and, between them, characters the host appends
(20_memory.md R53, 60_exceptions.md R203). -/
inductive Reaches : State → State → Prop where
  | refl (s : State) : Reaches s s
  | core {s t u : State} : Reaches s t → step t = .next u → Reaches s u
  | host {s t : State} (cs : List Byte) : Reaches s t → Reaches s (t.hostAppend cs)

/-- The end of a run (60_exceptions.md R204): the outcome `Halted`. -/
def State.ended (s : State) : Bool := !s.running

/-- The invariant of the machine: memory is in canonical form, and a pending wait is that of a
running CORE whose trap entry is made, so R7 holds the return address and `pc` is that address
(44_trap.md R171, R172). -/
structure State.Inv (s : State) : Prop where
  memory : s.mem.wf = true
  waiting : s.awaitInput ≠ .none → s.running = true ∧ s.reg 7#3 = s.pc

/-! ### What an instruction may touch -/

/-- The vector of an instruction that is a TRAP (44_trap.md R161). -/
def trapVector : Instr → Option (BitVec 8)
  | .trap v => some v
  | .getc => some 0x20#8
  | .out => some 0x21#8
  | .puts => some 0x22#8
  | .inp => some 0x23#8
  | .putsp => some 0x24#8
  | .halt => some 0x25#8
  | _ => none

/-- The registers an instruction may write, by the table of 10_state.md R21. -/
def regsWritten (i : Instr) : List RegIdx :=
  match i with
  | .addReg dr _ _ | .addImm dr _ _ | .andReg dr _ _ | .andImm dr _ _ | .not dr _
  | .ld dr _ | .ldi dr _ | .ldr dr _ _ | .lea dr _ => [dr]
  | .jsr _ | .jsrr _ => [7#3]
  | _ =>
    match trapVector i with
    | none => []
    | some v => if v = 0x20#8 ∨ v = 0x23#8 then [7#3, 0#3] else [7#3]

/-- The register whose new value sets the flags, by the list of 40_cycle.md R107. -/
def flagRegister (i : Instr) : Option RegIdx :=
  match i with
  | .addReg dr _ _ | .addImm dr _ _ | .andReg dr _ _ | .andImm dr _ _ | .not dr _
  | .ld dr _ | .ldi dr _ | .ldr dr _ _ | .lea dr _ => some dr
  | _ => if trapVector i = some 0x20#8 ∨ trapVector i = some 0x23#8 then some 0#3 else none

/-- The address an instruction stores to in state `s`, by 43_load_store.md R145 to R147. -/
def storeAddress (i : Instr) (s : State) : Option Word :=
  match i with
  | .st _ off => some (s.pcRel9 off)
  | .sti _ off => some (s.indirect9 off).1
  | .str _ base off => some (s.baseOff6 base off)
  | _ => none

/-- Whether an instruction reads KBSR, and so polls the keyboard (20_memory.md R41, R42). A
string service may where it reads memory through the device read (R58). -/
def mayPoll (i : Instr) (s : State) : Prop :=
  match i with
  | .ld _ off => s.pcRel9 off = kbsrAddr
  | .ldi _ off => s.pcRel9 off = kbsrAddr ∨ (s.indirect9 off).1 = kbsrAddr
  | .ldr _ base off => s.baseOff6 base off = kbsrAddr
  | .sti _ off => s.pcRel9 off = kbsrAddr
  | _ =>
    (trapVector i = some 0x22#8 ∨ trapVector i = some 0x24#8) ∧ Config.trapStrDeviceRead = true

/-- The bits of an instruction's word that its format does not name (30_encoding.md R86). -/
def ignoredBits : Instr → Word
  | .addReg _ _ _ => 0x0018#16
  | .andReg _ _ _ => 0x0018#16
  | .not _ _ => 0x003F#16
  | .jmp _ => 0x0E3F#16
  | .ret => 0x0E3F#16
  | .jsrr _ => 0x063F#16
  | .rti => 0x0FFF#16
  | .res => 0x0FFF#16
  | .trap _ => 0x0F00#16
  | .getc => 0x0F00#16
  | .out => 0x0F00#16
  | .puts => 0x0F00#16
  | .inp => 0x0F00#16
  | .putsp => 0x0F00#16
  | .halt => 0x0F00#16
  | .br _ _ => 0x0000#16
  | .addImm _ _ _ => 0x0000#16
  | .ld _ _ => 0x0000#16
  | .st _ _ => 0x0000#16
  | .jsr _ => 0x0000#16
  | .andImm _ _ _ => 0x0000#16
  | .ldr _ _ _ => 0x0000#16
  | .str _ _ _ => 0x0000#16
  | .ldi _ _ => 0x0000#16
  | .sti _ _ => 0x0000#16
  | .lea _ _ => 0x0000#16

/-- The `pc` an instruction leaves, by 10_state.md R24; `s.pc` is `A + 1`. -/
def pcLeft (i : Instr) (s : State) : Word :=
  match i with
  | .br nzp off => if branchTaken nzp s.cond then s.pc + off.signExtend 16 else s.pc
  | .jmp base => s.reg base
  | .ret => s.reg 7#3
  | .jsr off => s.pc + off.signExtend 16
  | .jsrr base => if base = 7#3 then s.pc else s.reg base
  | _ => s.pc

/-! ### The loops of the string services, as the rules write them -/

/-- The loop of PUTS (44_trap.md R164) from address `a` in state `s` exits in state `t`. -/
inductive PutsLoop : Word → State → State → Prop where
  | exit {a : Word} {s : State} : (s.strRead a).1 = 0x0000#16 → PutsLoop a s (s.strRead a).2
  | go {a : Word} {s t : State} : (s.strRead a).1 ≠ 0x0000#16 →
      PutsLoop (a + 1#16) ((s.strRead a).2.writeChar ((s.strRead a).1.extractLsb' 0 8)) t →
      PutsLoop a s t

/-- The loop of PUTSP (44_trap.md R166) from address `a` in state `s` exits in state `t`. -/
inductive PutspLoop : Word → State → State → Prop where
  | exit {a : Word} {s : State} : (s.strRead a).1.extractLsb' 0 8 = 0x00#8 →
      PutspLoop a s (s.strRead a).2
  | goLow {a : Word} {s t : State} : (s.strRead a).1.extractLsb' 0 8 ≠ 0x00#8 →
      (s.strRead a).1.extractLsb' 8 8 = 0x00#8 →
      PutspLoop (a + 1#16) ((s.strRead a).2.writeChar ((s.strRead a).1.extractLsb' 0 8)) t →
      PutspLoop a s t
  | goBoth {a : Word} {s t : State} : (s.strRead a).1.extractLsb' 0 8 ≠ 0x00#8 →
      (s.strRead a).1.extractLsb' 8 8 ≠ 0x00#8 →
      PutspLoop (a + 1#16)
        (((s.strRead a).2.writeChar ((s.strRead a).1.extractLsb' 0 8)).writeChar
          ((s.strRead a).1.extractLsb' 8 8)) t →
      PutspLoop a s t

end Sys2Proof.Machine
end

