-- ==== Sys2Proof/Certificates/Slice0/Obligations.lean ====
section
/-! DEFINITION. The statements about the machine.

A result is written out as the next state's record, so each such equation is also the frame: a
field that is not named is unchanged. In a state that `exec` is given, `s.pc` is the incremented
value `A + 1` (40_cycle.md R103). -/

open Sys2Proof Sys2Proof.Machine

/-! ### Encoding -/

/-- Decoding the canonical word of a well-formed instruction gives it back, for every operand
value (30_encoding.md R70 to R85). Where R90 writes an ignored bit as one or zero, the encoder
does (log entry 19). -/
def Obligations.DecodeOfEncodeIsTheInstruction : Prop :=
  ∀ i : Instr, i.wellFormed = true → decode (encode i) = i

/-- Every word decodes to a well-formed instruction, whose canonical word has the same bits
wherever the format names one (30_encoding.md R86, R87). -/
def Obligations.EncodeOfDecodeKeepsEveryNamedBit : Prop :=
  ∀ w : Word, (decode w).wellFormed = true ∧
    (encode (decode w) ^^^ w) &&& ~~~ignoredBits (decode w) = 0x0000#16

/-- Two words that differ only in ignored bits decode alike (30_encoding.md R86; the spec's
decision D5, log entry 11). -/
def Obligations.WordsDifferingInIgnoredBitsDecodeAlike : Prop :=
  ∀ w w' : Word, (w ^^^ w') &&& ~~~ignoredBits (decode w) = 0x0000#16 → decode w' = decode w

/-- Words written out bit by bit from the patterns of 30_encoding.md R72 to R82 decode to the
instruction they stand for. -/
def Obligations.WrittenOutWordsDecode : Prop :=
  decode 0b0001_001_010_1_11101#16 = .addImm 1 2 0b11101 ∧
  decode 0b0101_000_001_0_00_010#16 = .andReg 0 1 2 ∧
  decode 0b0000_001_111111101#16 = .br 0b001 0b111111101 ∧
  decode 0b0100_0_00_010_000000#16 = .jsrr 2 ∧
  decode 0b1010_000_000000011#16 = .ldi 0 3 ∧
  decode 0b0111_100_001_000010#16 = .str 4 1 2 ∧
  decode 0b1000_000000000000#16 = .rti ∧
  decode 0b1111_1111_00100101#16 = .halt

/-- The opcode of the decoded instruction is the one the table of 30_encoding.md R71 gives the
value of bits 15 to 12; none is unassigned (the values by the spec's decision D2, log entry
8). -/
def Obligations.OpcodeFieldSelectsByTheTable : Prop :=
  ∀ w : Word,
    (decode w).opcode =
      match (w.extractLsb' 12 4).toNat with
      | 0x0 => .br | 0x1 => .add | 0x2 => .ld | 0x3 => .st
      | 0x4 => .jsr | 0x5 => .and | 0x6 => .ldr | 0x7 => .str
      | 0x8 => .rti | 0x9 => .not | 0xA => .ldi | 0xB => .sti
      | 0xC => .jmp | 0xD => .res | 0xE => .lea | _ => .trap

/-! ### The units -/

/-- `sext_N` of the low N bits of any word reads, as a two's complement word, as the field reads
with bit N - 1 as its sign (40_cycle.md R110). -/
def Obligations.SignExtensionIsTwosComplement : Prop :=
  ∀ x : Word,
    (sext (x.setWidth 5)).toInt
      = (x.toNat % 32 : Nat) - (if x.getLsbD 4 then 32 else 0) ∧
    (sext (x.setWidth 6)).toInt
      = (x.toNat % 64 : Nat) - (if x.getLsbD 5 then 64 else 0) ∧
    (sext (x.setWidth 9)).toInt
      = (x.toNat % 512 : Nat) - (if x.getLsbD 8 then 512 else 0) ∧
    (sext (x.setWidth 11)).toInt
      = (x.toNat % 2048 : Nat) - (if x.getLsbD 10 then 2048 else 0)

/-- `SetFlags` (40_cycle.md R106), and its value: after a flag-setting instruction `cond` is what
`SetFlags` makes of the register that the instruction wrote. A GETC or IN that waits has not
reached its `SetFlags` yet. -/
def Obligations.SetFlagsFollowsTheValue : Prop :=
  (∀ (s : State) (v : Word),
    s.setFlags v =
      { s with
        cond := if v = 0x0000#16 then .zero else if v.getLsbD 15 then .neg else .pos }) ∧
  (∀ (s : State) (dr : RegIdx) (v : Word),
    (s.setRegFlags dr v).reg dr = v ∧
      s.setRegFlags dr v = (s.setReg dr v).setFlags ((s.setRegFlags dr v).reg dr)) ∧
  (∀ (i : Instr) (s t : State) (r : RegIdx), s.awaitInput = .none → exec i s = .next t →
    flagRegister i = some r → t.awaitInput = .none → t = t.setFlags (t.reg r))

/-- `BranchTaken` (40_cycle.md R108): n, z and p are bits 2, 1 and 0 of the mask (the spec's
decision D3, log entry 10). -/
def Obligations.BranchTakenTestsTheConditionBit : Prop :=
  ∀ (nzp : BitVec 3) (c : Cond),
    (branchTaken nzp c = true ↔
      (nzp.getLsbD 2 = true ∧ c = .neg) ∨ (nzp.getLsbD 1 = true ∧ c = .zero) ∨
        (nzp.getLsbD 0 = true ∧ c = .pos)) ∧
    branchTaken 0b000#3 c = false ∧ branchTaken 0b111#3 c = true

/-- Each of R0 to R7 reads back the last value written to it, and a write of one changes no
other (10_state.md R20). -/
def Obligations.RegistersReadBackWhatWasWritten : Prop :=
  ∀ (s : State) (i j : RegIdx) (v : Word),
    (s.setReg i v).reg j = if j = i then v else s.reg j

/-- A write is a pure store at every address: it changes that cell and nothing else, and it
neither polls nor fails (20_memory.md R45). -/
def Obligations.MemoryWriteIsAPureStore : Prop :=
  ∀ (s : State) (a b v : Word),
    (s.memWrite a v).stored b = (if b = a then v else s.stored b) ∧
    { s.memWrite a v with mem := s.mem } = s

/-- A read of any address but 0xFE00 returns the stored cell and changes nothing, so two such
reads give the same; KBDR, read after a poll that found a key, gives the buffered character
(20_memory.md R44). -/
def Obligations.ReadsAwayFromKbsrArePure : Prop :=
  (∀ (s : State) (a : Word), a ≠ 0xFE00#16 →
    s.memRead a = (s.stored a, s) ∧ (s.memRead a).2.memRead a = s.memRead a) ∧
  (∀ (s : State) (c : Byte) (rest : List Byte), s.input = c :: rest →
    ((s.memRead 0xFE00#16).2.memRead 0xFE02#16).1 = c.setWidth 16)

/-- A read of KBSR polls: with no key it leaves and returns 0x0000 and touches no other cell;
with a key it takes the head of `input`, leaves and returns 0x8000, and leaves the code in KBDR
(20_memory.md R42, R43; the address by D4, the input list by D13: log entries 9 and 13). -/
def Obligations.KbsrReadPolls : Prop :=
  (∀ s : State, s.input = [] →
    ∃ t, s.memRead 0xFE00#16 = (0x0000#16, t) ∧ { t with mem := s.mem } = s ∧
      ∀ a, t.stored a = if a = 0xFE00#16 then 0x0000#16 else s.stored a) ∧
  (∀ (s : State) (c : Byte) (rest : List Byte), s.input = c :: rest →
    ∃ t, s.memRead 0xFE00#16 = (0x8000#16, t) ∧ { t with mem := s.mem, input := c :: rest } = s ∧
      t.input = rest ∧
      ∀ a, t.stored a =
        if a = 0xFE00#16 then 0x8000#16 else if a = 0xFE02#16 then c.setWidth 16 else s.stored a)

/-- `StrRead` takes the device read or the stored cell, as the open parameter says
(20_memory.md R58; D8, log entry 3). -/
def Obligations.StrReadFollowsTheParameter : Prop :=
  ∀ (s : State) (a : Word),
    s.strRead a = if Config.trapStrDeviceRead then s.memRead a else (s.stored a, s)

/-! ### Operate instructions -/

/-- ADD (41_operate.md R121): its words, its result, and everything it leaves alone. -/
def Obligations.AddWritesTheWrappedSum : Prop :=
  (∀ w : Word, opcodeOf (w.extractLsb' 12 4) = .add →
    decode w =
      if w.getLsbD 5 then .addImm (w.extractLsb' 9 3) (w.extractLsb' 6 3) (w.extractLsb' 0 5)
      else .addReg (w.extractLsb' 9 3) (w.extractLsb' 6 3) (w.extractLsb' 0 3)) ∧
  (∀ (s : State) (dr sr1 sr2 : RegIdx),
    exec (.addReg dr sr1 sr2) s =
      .next { s with
        regs := s.regs.set dr.toNat (s.reg sr1 + s.reg sr2),
        cond := condOf (s.reg sr1 + s.reg sr2) }) ∧
  (∀ (s : State) (dr sr1 : RegIdx) (imm5 : BitVec 5),
    exec (.addImm dr sr1 imm5) s =
      .next { s with
        regs := s.regs.set dr.toNat (s.reg sr1 + imm5.signExtend 16),
        cond := condOf (s.reg sr1 + imm5.signExtend 16) })

/-- AND (41_operate.md R122). -/
def Obligations.AndWritesTheBitwiseAnd : Prop :=
  (∀ w : Word, opcodeOf (w.extractLsb' 12 4) = .and →
    decode w =
      if w.getLsbD 5 then .andImm (w.extractLsb' 9 3) (w.extractLsb' 6 3) (w.extractLsb' 0 5)
      else .andReg (w.extractLsb' 9 3) (w.extractLsb' 6 3) (w.extractLsb' 0 3)) ∧
  (∀ (s : State) (dr sr1 sr2 : RegIdx),
    exec (.andReg dr sr1 sr2) s =
      .next { s with
        regs := s.regs.set dr.toNat (s.reg sr1 &&& s.reg sr2),
        cond := condOf (s.reg sr1 &&& s.reg sr2) }) ∧
  (∀ (s : State) (dr sr1 : RegIdx) (imm5 : BitVec 5),
    exec (.andImm dr sr1 imm5) s =
      .next { s with
        regs := s.regs.set dr.toNat (s.reg sr1 &&& imm5.signExtend 16),
        cond := condOf (s.reg sr1 &&& imm5.signExtend 16) })

/-- NOT (41_operate.md R123). -/
def Obligations.NotWritesTheComplement : Prop :=
  (∀ w : Word, opcodeOf (w.extractLsb' 12 4) = .not →
    decode w = .not (w.extractLsb' 9 3) (w.extractLsb' 6 3)) ∧
  (∀ (s : State) (dr sr : RegIdx),
    exec (.not dr sr) s =
      .next { s with
        regs := s.regs.set dr.toNat (~~~s.reg sr), cond := condOf (~~~s.reg sr) })

/-! ### Control transfer -/

/-- BR (42_control.md R131). -/
def Obligations.BrAddsTheOffsetWhenTaken : Prop :=
  (∀ w : Word, opcodeOf (w.extractLsb' 12 4) = .br →
    decode w = .br (w.extractLsb' 9 3) (w.extractLsb' 0 9)) ∧
  (∀ (s : State) (nzp : BitVec 3) (off : BitVec 9),
    exec (.br nzp off) s =
      .next (if branchTaken nzp s.cond then { s with pc := s.pc + off.signExtend 16 } else s))

/-- JMP (42_control.md R132), and RET, which is JMP through R7. -/
def Obligations.JmpLoadsThePcFromBaseR : Prop :=
  (∀ w : Word, opcodeOf (w.extractLsb' 12 4) = .jmp →
    decode w = if w.extractLsb' 6 3 = 7#3 then .ret else .jmp (w.extractLsb' 6 3)) ∧
  (∀ (s : State) (base : RegIdx), exec (.jmp base) s = .next { s with pc := s.reg base }) ∧
  (∀ s : State, exec .ret s = .next { s with pc := s.reg 7#3 })

/-- JSR (42_control.md R133): R7 takes the return address, and the target is relative to the
incremented `pc`. -/
def Obligations.JsrLinksAndBranches : Prop :=
  (∀ w : Word, opcodeOf (w.extractLsb' 12 4) = .jsr → w.getLsbD 11 = true →
    decode w = .jsr (w.extractLsb' 0 11)) ∧
  (∀ (s : State) (off : BitVec 11),
    exec (.jsr off) s =
      .next { s with regs := s.regs.set 7 s.pc, pc := s.pc + off.signExtend 16 })

/-- JSRR (42_control.md R134): BaseR is read after R7 is written, so `JSRR R7` goes to the
return address (the spec's decision D9, log entry 12). -/
def Obligations.JsrrLinksAndJumps : Prop :=
  (∀ w : Word, opcodeOf (w.extractLsb' 12 4) = .jsr → w.getLsbD 11 = false →
    decode w = .jsrr (w.extractLsb' 6 3)) ∧
  (∀ (s : State) (base : RegIdx),
    exec (.jsrr base) s =
      .next { s with
        regs := s.regs.set 7 s.pc, pc := if base = 7#3 then s.pc else s.reg base })

/-! ### Loads, stores and LEA -/

/-- LD (43_load_store.md R141). -/
def Obligations.LdLoadsPcRelative : Prop :=
  (∀ w : Word, opcodeOf (w.extractLsb' 12 4) = .ld →
    decode w = .ld (w.extractLsb' 9 3) (w.extractLsb' 0 9)) ∧
  (∀ (s t : State) (dr : RegIdx) (off : BitVec 9) (v : Word),
    s.memRead (s.pc + off.signExtend 16) = (v, t) →
    exec (.ld dr off) s =
      .next { t with regs := s.regs.set dr.toNat v, cond := condOf v })

/-- LDI (43_load_store.md R142): the pointer read comes before the data read. -/
def Obligations.LdiLoadsThroughThePointer : Prop :=
  (∀ w : Word, opcodeOf (w.extractLsb' 12 4) = .ldi →
    decode w = .ldi (w.extractLsb' 9 3) (w.extractLsb' 0 9)) ∧
  (∀ (s t u : State) (dr : RegIdx) (off : BitVec 9) (p v : Word),
    s.memRead (s.pc + off.signExtend 16) = (p, t) → t.memRead p = (v, u) →
    exec (.ldi dr off) s =
      .next { u with regs := s.regs.set dr.toNat v, cond := condOf v })

/-- LDR (43_load_store.md R143). -/
def Obligations.LdrLoadsBasePlusOffset : Prop :=
  (∀ w : Word, opcodeOf (w.extractLsb' 12 4) = .ldr →
    decode w = .ldr (w.extractLsb' 9 3) (w.extractLsb' 6 3) (w.extractLsb' 0 6)) ∧
  (∀ (s t : State) (dr base : RegIdx) (off : BitVec 6) (v : Word),
    s.memRead (s.reg base + off.signExtend 16) = (v, t) →
    exec (.ldr dr base off) s =
      .next { t with regs := s.regs.set dr.toNat v, cond := condOf v })

/-- LEA (43_load_store.md R144): the address and no memory access. -/
def Obligations.LeaWritesTheAddress : Prop :=
  (∀ w : Word, opcodeOf (w.extractLsb' 12 4) = .lea →
    decode w = .lea (w.extractLsb' 9 3) (w.extractLsb' 0 9)) ∧
  (∀ (s : State) (dr : RegIdx) (off : BitVec 9),
    exec (.lea dr off) s =
      .next { s with
        regs := s.regs.set dr.toNat (s.pc + off.signExtend 16),
        cond := condOf (s.pc + off.signExtend 16) })

/-- ST (43_load_store.md R145). -/
def Obligations.StStoresPcRelative : Prop :=
  (∀ w : Word, opcodeOf (w.extractLsb' 12 4) = .st →
    decode w = .st (w.extractLsb' 9 3) (w.extractLsb' 0 9)) ∧
  (∀ (s : State) (sr : RegIdx) (off : BitVec 9),
    ∃ t, exec (.st sr off) s = .next t ∧ { t with mem := s.mem } = s ∧
      ∀ a, t.stored a = if a = s.pc + off.signExtend 16 then s.reg sr else s.stored a)

/-- STI (43_load_store.md R146): the pointer read may poll, the write is a plain store. -/
def Obligations.StiStoresThroughThePointer : Prop :=
  (∀ w : Word, opcodeOf (w.extractLsb' 12 4) = .sti →
    decode w = .sti (w.extractLsb' 9 3) (w.extractLsb' 0 9)) ∧
  (∀ (s r : State) (sr : RegIdx) (off : BitVec 9) (p : Word),
    s.memRead (s.pc + off.signExtend 16) = (p, r) →
    ∃ t, exec (.sti sr off) s = .next t ∧ { t with mem := r.mem } = r ∧
      ∀ a, t.stored a = if a = p then s.reg sr else r.stored a)

/-- STR (43_load_store.md R147). -/
def Obligations.StrStoresBasePlusOffset : Prop :=
  (∀ w : Word, opcodeOf (w.extractLsb' 12 4) = .str →
    decode w = .str (w.extractLsb' 9 3) (w.extractLsb' 6 3) (w.extractLsb' 0 6)) ∧
  (∀ (s : State) (sr base : RegIdx) (off : BitVec 6),
    ∃ t, exec (.str sr base off) s = .next t ∧ { t with mem := s.mem } = s ∧
      ∀ a, t.stored a =
        if a = s.reg base + off.signExtend 16 then s.reg sr else s.stored a)

/-! ### Reserved opcodes -/

/-- RTI (45_reserved.md R180): nothing changes but the fetch's `pc`. -/
def Obligations.RtiChangesNothing : Prop :=
  (∀ w : Word, opcodeOf (w.extractLsb' 12 4) = .rti → decode w = .rti) ∧
  (∀ s : State, exec .rti s = .next s)

/-- RES (45_reserved.md R181): nothing changes but the fetch's `pc`, and no error is raised
(the spec's decision D26, log entry 14). -/
def Obligations.ResChangesNothing : Prop :=
  (∀ w : Word, opcodeOf (w.extractLsb' 12 4) = .res → decode w = .res) ∧
  (∀ s : State, exec .res s = .next s)

/-! ### TRAP -/

/-- TRAP (44_trap.md R160, R161, R168): the words of each vector; the vectors of the services
run them, and every other one writes R7 and does nothing more (the spec's decisions D10 and
D26, log entry 14). -/
def Obligations.TrapDispatchesByVector : Prop :=
  (∀ w : Word, opcodeOf (w.extractLsb' 12 4) = .trap →
    decode w =
      if w.extractLsb' 0 8 = 0x20#8 then .getc
      else if w.extractLsb' 0 8 = 0x21#8 then .out
      else if w.extractLsb' 0 8 = 0x22#8 then .puts
      else if w.extractLsb' 0 8 = 0x23#8 then .inp
      else if w.extractLsb' 0 8 = 0x24#8 then .putsp
      else if w.extractLsb' 0 8 = 0x25#8 then .halt
      else .trap (w.extractLsb' 0 8)) ∧
  (∀ s : State,
    exec (.trap 0x20#8) s = exec .getc s ∧ exec (.trap 0x21#8) s = exec .out s ∧
    exec (.trap 0x22#8) s = exec .puts s ∧ exec (.trap 0x23#8) s = exec .inp s ∧
    exec (.trap 0x24#8) s = exec .putsp s ∧ exec (.trap 0x25#8) s = exec .halt s) ∧
  (∀ (s : State) (v : BitVec 8), v < 0x20#8 ∨ 0x25#8 < v →
    exec (.trap v) s = .next { s with regs := s.regs.set 7 s.pc })

/-- GETC with a character there (44_trap.md R162, R160): R7, then R0 zero-extended and the
flags on it; no echo, and KBSR and KBDR are not touched. -/
def Obligations.GetcReadsOneCharacter : Prop :=
  ∀ (s : State) (c : Byte) (rest : List Byte), s.input = c :: rest →
    exec .getc s =
      .next { s with
        regs := (s.regs.set 7 s.pc).set 0 (c.setWidth 16),
        cond := condOf (c.setWidth 16), input := rest, awaitInput := .none }

/-- OUT (44_trap.md R163): the low 8 bits of R0, and R7. -/
def Obligations.OutWritesTheLowByteOfR0 : Prop :=
  ∀ s : State,
    exec .out s =
      .next { s with
        regs := s.regs.set 7 s.pc, output := s.output ++ [(s.reg 0#3).extractLsb' 0 8] }

/-- IN with a character there (44_trap.md R165): prompt, echo, R0 and the flags, and nothing
else is written (the spec's decision D15; the prompt is an open constant: log entry 2). -/
def Obligations.InPromptsReadsAndEchoes : Prop :=
  ∀ (s : State) (c : Byte) (rest : List Byte), s.input = c :: rest →
    exec .inp s =
      .next { s with
        regs := (s.regs.set 7 s.pc).set 0 (c.setWidth 16),
        cond := condOf (c.setWidth 16), input := rest,
        output := s.output ++ Config.inPrompt ++ [c], awaitInput := .none }

/-- HALT (44_trap.md R167): the notice, then the running flag; R7 as every TRAP (the notice is
an open constant, D16: log entry 2). -/
def Obligations.HaltWritesTheNoticeAndStops : Prop :=
  ∀ s : State,
    exec .halt s =
      .next { s with
        regs := s.regs.set 7 s.pc, output := s.output ++ Config.haltNotice, running := false }

/-- GETC and IN with no character there (44_trap.md R171; D14, log entry 5): the effects before
the read are made, and the wait is entered. -/
def Obligations.GetcAndInWaitWithoutInput : Prop :=
  ∀ s : State, s.input = [] →
    exec .getc s = .next { s with regs := s.regs.set 7 s.pc, awaitInput := .getc } ∧
    exec .inp s =
      .next { s with
        regs := s.regs.set 7 s.pc, output := s.output ++ Config.inPrompt,
        awaitInput := .inp }

/-- A GETC or IN that waited, once the host has appended characters, ends in the very state it
would have reached had they been there before it started (44_trap.md R171; D14, log entry 5).
While none is there the machine has no step. -/
def Obligations.WaitingGivesWhatEarlyInputGives : Prop :=
  ∀ s : State, s.running = true → s.awaitInput = .none → s.input = [] →
    decode s.fetch.1 = .getc ∨ decode s.fetch.1 = .inp →
    ∃ t, step s = .next t ∧ step t = .fault .awaitInput ∧
      ∀ (c : Byte) (cs : List Byte),
        step (t.hostAppend (c :: cs)) = step (s.hostAppend (c :: cs))

/-! ### The string services -/

/-- PUTS on a string of nonzero words ended by a zero word (44_trap.md R164; the low byte by
D11, the wrap by D12: log entries 15 and 4). The string may cross 0xFE00 only where the
parameter says the cells are read directly (R58). -/
def Obligations.PutsWritesTheString : Prop :=
  ∀ (s : State) (ws : List Word), ws.length < 65536 →
    (∀ w ∈ ws, w ≠ 0x0000#16) →
    (∀ (k : Nat) (w : Word), ws[k]? = some w → s.stored (s.reg 0#3 + BitVec.ofNat 16 k) = w) →
    s.stored (s.reg 0#3 + BitVec.ofNat 16 ws.length) = 0x0000#16 →
    (∀ k : Nat, k ≤ ws.length → s.reg 0#3 + BitVec.ofNat 16 k ≠ 0xFE00#16) ∨
      Config.trapStrDeviceRead = false →
    exec .puts s =
      .next { s with
        regs := s.regs.set 7 s.pc,
        output := s.output ++ ws.map (fun w => w.extractLsb' 0 8) }

/-- PUTSP on a string of words with nonzero low bytes, ended by a word whose low byte is zero
(44_trap.md R166; D28 and D12: log entries 16 and 4). -/
def Obligations.PutspWritesThePackedString : Prop :=
  ∀ (s : State) (ws : List Word), ws.length < 65536 →
    (∀ w ∈ ws, w.extractLsb' 0 8 ≠ 0#8) →
    (∀ (k : Nat) (w : Word), ws[k]? = some w → s.stored (s.reg 0#3 + BitVec.ofNat 16 k) = w) →
    (s.stored (s.reg 0#3 + BitVec.ofNat 16 ws.length)).extractLsb' 0 8 = 0#8 →
    (∀ k : Nat, k ≤ ws.length → s.reg 0#3 + BitVec.ofNat 16 k ≠ 0xFE00#16) ∨
      Config.trapStrDeviceRead = false →
    exec .putsp s =
      .next { s with
        regs := s.regs.set 7 s.pc,
        output := s.output ++ ws.flatMap (fun w =>
          if w.extractLsb' 8 8 = 0#8 then [w.extractLsb' 0 8]
          else [w.extractLsb' 0 8, w.extractLsb' 8 8]) }

/-- PUTS completes in a state exactly when the loop of 44_trap.md R164, of any number of
iterations, exits in it (with R170: log entry 4). -/
def Obligations.PutsIsItsLoop : Prop :=
  ∀ s t : State, exec .puts s = .next t ↔ PutsLoop (s.reg 0#3) s.trapEntry t

/-- PUTSP completes in a state exactly when the loop of 44_trap.md R166, of any number of
iterations, exits in it (with R170: log entry 4). -/
def Obligations.PutspIsItsLoop : Prop :=
  ∀ s t : State, exec .putsp s = .next t ↔ PutspLoop (s.reg 0#3) s.trapEntry t

/-- PUTS and PUTSP stop with `StringUnterminated` exactly when memory holds no terminator and
the cells are read directly (44_trap.md R170; D12, log entry 4); else they complete. With the
device read they always complete, since each pass over memory reads KBSR. -/
def Obligations.StringServicesCompleteOrAreUnterminated : Prop :=
  ∀ s : State,
    (exec .puts s = .fault .stringUnterminated ↔
      Config.trapStrDeviceRead = false ∧ ∀ a, s.stored a ≠ 0x0000#16) ∧
    (exec .puts s = .fault .stringUnterminated ∨ ∃ t, exec .puts s = .next t) ∧
    (exec .putsp s = .fault .stringUnterminated ↔
      Config.trapStrDeviceRead = false ∧ ∀ a, (s.stored a).extractLsb' 0 8 ≠ 0#8) ∧
    (exec .putsp s = .fault .stringUnterminated ∨ ∃ t, exec .putsp s = .next t)

/-- Where memory holds a terminator PUTS and PUTSP complete, and of registers, `pc`, `cond`,
the running flag and the wait they change R7 alone; of memory, at most the device cells
(44_trap.md R164, R166, R169). -/
def Obligations.TerminatedStringServicesComplete : Prop :=
  ∀ s : State,
    ((∃ a, s.stored a = 0x0000#16) → ∃ t, exec .puts s = .next t ∧
      (t.regs, t.pc, t.cond, t.running, t.awaitInput)
        = (s.regs.set 7 s.pc, s.pc, s.cond, s.running, s.awaitInput) ∧
      ∀ a, a ≠ 0xFE00#16 → a ≠ 0xFE02#16 → t.stored a = s.stored a) ∧
    ((∃ a, (s.stored a).extractLsb' 0 8 = 0#8) → ∃ t, exec .putsp s = .next t ∧
      (t.regs, t.pc, t.cond, t.running, t.awaitInput)
        = (s.regs.set 7 s.pc, s.pc, s.cond, s.running, s.awaitInput) ∧
      ∀ a, a ≠ 0xFE00#16 → a ≠ 0xFE02#16 → t.stored a = s.stored a)

/-! ### Whole-machine rules over every instruction -/

/-- Only the registers the table of 10_state.md R21 names for an instruction change. -/
def Obligations.OnlyNamedRegistersChange : Prop :=
  ∀ (i : Instr) (s t : State), exec i s = .next t →
    ∀ r : RegIdx, r ∉ regsWritten i → t.reg r = s.reg r

/-- An instruction that 40_cycle.md R107 does not list leaves `cond` alone; one that it lists
leaves `cond` as the sign of the register it wrote, or, while it waits for its character, as it
was. -/
def Obligations.CondFollowsTheFlagSettingWrite : Prop :=
  ∀ (i : Instr) (s t : State), s.awaitInput = .none → exec i s = .next t →
    (flagRegister i = none → t.cond = s.cond) ∧
    (∀ r, flagRegister i = some r →
      if t.awaitInput = .none then t.cond = condOf (t.reg r) else t.cond = s.cond)

/-- Every cell is as before but the one an instruction stores to and, where it reads KBSR, the
two device cells (20_memory.md R41, R43, R45). -/
def Obligations.MemoryChangesOnlyByStoreOrPoll : Prop :=
  ∀ (i : Instr) (s t : State), exec i s = .next t →
    ∀ a : Word, storeAddress i s ≠ some a →
      (mayPoll i s → a ≠ 0xFE00#16 ∧ a ≠ 0xFE02#16) → t.stored a = s.stored a

/-- Output comes only from the OUT, PUTS, IN, PUTSP and HALT services, and is only appended;
input is taken only by a poll, GETC or IN, and only from its head; the host appends to input, at
its end, and touches nothing else (10_state.md R36, 60_exceptions.md R199, R203, 20_memory.md
R53; D13 and D20, log entries 13 and 22). -/
def Obligations.ConsoleMovesOnlyByServicesAndPolls : Prop :=
  (∀ (i : Instr) (s t : State), exec i s = .next t →
    (∃ out, t.output = s.output ++ out) ∧ (∃ taken, s.input = taken ++ t.input) ∧
    (trapVector i ∉ [some 0x21#8, some 0x22#8, some 0x23#8, some 0x24#8, some 0x25#8] →
      t.output = s.output) ∧
    (¬mayPoll i s → trapVector i ∉ [some 0x20#8, some 0x23#8] → t.input = s.input)) ∧
  (∀ (s : State) (cs : List Byte), s.hostAppend cs = { s with input := s.input ++ cs })

/-- How each instruction leaves `pc`: the fetch increments it, BR, JMP, JSR and JSRR set it as
their rules say, every other instruction leaves `A + 1` (10_state.md R24). -/
def Obligations.PcIsLeftAsTheTableSays : Prop :=
  (∀ s : State, s.fetch.2.pc = s.pc + 1#16) ∧
  (∀ (i : Instr) (s t : State), exec i s = .next t → t.pc = pcLeft i s)

/-! ### Steps -/

/-- A step of a running machine that does not wait executes the instruction decoded from the
word at `pc`, in the state whose `pc` is one word on (40_cycle.md R101, R102, R112); where `pc`
is 0xFE00 the fetch polls first (D7, log entry 17). -/
def Obligations.StepRunsTheDecodedInstruction : Prop :=
  ∀ s : State, s.running = true → s.awaitInput = .none →
    (s.pc ≠ 0xFE00#16 →
      step s = exec (decode (s.stored s.pc)) { s with pc := s.pc + 1#16 }) ∧
    (s.pc = 0xFE00#16 →
      step s = exec (decode (s.devicePoll.stored 0xFE00#16)) { s.devicePoll with pc := 0xFE01#16 })

/-- The outcomes of a step (60_exceptions.md R190, R191; D19 and D12, log entries 5 and 4): none
is refused; it stops as halted exactly when `running` is false, as waiting exactly when a
running machine waits and `input` is empty, as unterminated exactly at a string service with no
terminator in the cells that it reads directly; and it has a next state exactly elsewhere. -/
def Obligations.StepStopsOnlyWhereTheSpecNamesAnOutcome : Prop :=
  ∀ s : State,
    (∀ r, step s ≠ .refused r) ∧
    (step s = .fault .halted ↔ s.running = false) ∧
    (step s = .fault .awaitInput ↔
      s.running = true ∧ s.awaitInput ≠ .none ∧ s.input = []) ∧
    (step s = .fault .stringUnterminated ↔
      s.running = true ∧ s.awaitInput = .none ∧ Config.trapStrDeviceRead = false ∧
        ((decode s.fetch.1 = .puts ∧ ∀ a, s.fetch.2.stored a ≠ 0x0000#16) ∨
          (decode s.fetch.1 = .putsp ∧ ∀ a, (s.fetch.2.stored a).extractLsb' 0 8 ≠ 0#8))) ∧
    ((∃ t, step s = .next t) ↔
      s.running = true ∧ (s.awaitInput ≠ .none → s.input ≠ []) ∧
        (s.awaitInput = .none → Config.trapStrDeviceRead = false →
          (decode s.fetch.1 = .puts → ∃ a, s.fetch.2.stored a = 0x0000#16) ∧
          (decode s.fetch.1 = .putsp → ∃ a, (s.fetch.2.stored a).extractLsb' 0 8 = 0#8)))

/-- Only HALT clears `running`, and no step sets it: a step starts from a running machine, and
leaves it halted exactly where it runs HALT (10_state.md R33, 40_cycle.md R104). -/
def Obligations.OnlyHaltStopsTheMachine : Prop :=
  ∀ s t : State, step s = .next t →
    s.running = true ∧
      (t.running = false ↔ s.awaitInput = .none ∧ decode s.fetch.1 = .halt)

/-- Every step keeps the invariant (the canonical form of memory is the model's own, log
entry 7; the wait is that of 44_trap.md R171), and so does the host's append. -/
def Obligations.EveryStepKeepsTheInvariant : Prop :=
  ∀ s : State, s.Inv →
    (∀ t, step s = .next t → t.Inv) ∧ (∀ cs, (s.hostAppend cs).Inv)

/-- The machine after reset meets the invariant, whatever `gpr_reset` and the input are. -/
def Obligations.ResetMeetsTheInvariant : Prop :=
  State.reset.Inv ∧ ∀ gpr input, (State.resetWith gpr input).Inv

/-- Every state that a loaded machine reaches with its host meets the invariant, for every
`gpr_reset`, every images and every schedule of input. -/
def Obligations.EveryReachedStateMeetsTheInvariant : Prop :=
  ∀ (gpr : Vector Word 8) (input : List Byte) (images : List (Option (List Byte)))
    (s t : State), boot gpr input images = .ok s → Reaches s t → t.Inv

/-- A store of ST, STI or STR is seen by the next fetch, and not by the instruction that makes
it (20_memory.md R56). Neither fetch is from KBSR, where it would poll and replace the cell
(D7, log entry 17); STI's pointer read may. -/
def Obligations.NextFetchSeesTheStore : Prop :=
  ∀ (s : State) (sr base : RegIdx) (off9 : BitVec 9) (off6 : BitVec 6),
    s.running = true → s.awaitInput = .none → s.pc ≠ 0xFE00#16 → s.pc + 1#16 ≠ 0xFE00#16 →
    (decode (s.stored s.pc) = .st sr off9 →
      ∃ t, step s = .next t ∧ t.pc = s.pc + 1#16 ∧
        t.fetch.1 =
          if s.pc + 1#16 + off9.signExtend 16 = s.pc + 1#16 then s.reg sr
          else s.stored (s.pc + 1#16)) ∧
    (∀ (p : Word) (r : State), decode (s.stored s.pc) = .sti sr off9 →
      { s with pc := s.pc + 1#16 }.memRead (s.pc + 1#16 + off9.signExtend 16) = (p, r) →
      ∃ t, step s = .next t ∧ t.pc = s.pc + 1#16 ∧
        t.fetch.1 = if p = s.pc + 1#16 then s.reg sr else r.stored (s.pc + 1#16)) ∧
    (decode (s.stored s.pc) = .str sr base off6 →
      ∃ t, step s = .next t ∧ t.pc = s.pc + 1#16 ∧
        t.fetch.1 =
          if s.reg base + off6.signExtend 16 = s.pc + 1#16 then s.reg sr
          else s.stored (s.pc + 1#16))

/-- With a word placed for the next fetch, the next step runs exactly that instruction: at
`pc`, or at 0x3000 where `pc` is 0xFE00 (the model's own placing, log entry 21). -/
def Obligations.PlacedWordRunsNext : Prop :=
  ∀ (s : State) (w : Word),
    step (s.withFetchWord 16 w.toNat) =
      exec (decode w)
        { s.memWrite (if s.pc = 0xFE00#16 then 0x3000#16 else s.pc) w with
          pc := (if s.pc = 0xFE00#16 then 0x3000#16 else s.pc) + 1#16,
          running := true, awaitInput := .none }

/-! ### Reset and images -/

/-- The state when execution starts (10_state.md R37, 70_reset_and_hazards.md R210), with
`gpr_reset` and the supplied input as parameters; `State.reset` is it with zeros and no input
(the model's choice, log entries 1 and 6). A run starts exactly where the images load into the
zeroed memory, in that state with the loaded memory as its memory. -/
def Obligations.ResetLeavesTheListedValues : Prop :=
  (∀ (gpr : Vector Word 8) (input : List Byte),
    let s := State.resetWith gpr input
    s.pc = 0x3000#16 ∧ s.cond = .zero ∧ s.running = true ∧ s.awaitInput = .none ∧
      s.output = [] ∧ s.input = input ∧ s.regs = gpr ∧ ∀ a, s.stored a = 0x0000#16) ∧
  (∀ (gpr : Vector Word 8) (input : List Byte) (images : List (Option (List Byte))) (s : State),
    boot gpr input images = .ok s ↔
      ∃ m, loadImages images (State.resetWith gpr input).mem = .ok m ∧
        s = { State.resetWith gpr input with mem := m }) ∧
  State.reset = State.resetWith (Vector.replicate 8 0x0000#16) []

/-- Loading an image of origin `o` and words `ws` that fit places exactly those words from `o`
on and changes no other cell (70_reset_and_hazards.md R214). -/
def Obligations.ImageWordsAreReadBack : Prop :=
  ∀ (m : Memory) (o : Word) (ws : List Word), o.toNat + ws.length ≤ 65536 →
    ∃ m1, loadImage ((o :: ws).flatMap (fun w => [w.extractLsb' 8 8, w.extractLsb' 0 8])) m
        = .ok m1 ∧
      ∀ a : Nat, a < 65536 →
        m1.read a =
          if o.toNat ≤ a ∧ a < o.toNat + ws.length then ws.getD (a - o.toNat) 0 else m.read a

/-- The images a load refuses (70_reset_and_hazards.md R215, R216; the spec's decision D17, log
entry 18): no origin word, an odd length, more words than fit, and an unreadable file. Images
load in the order given, each into the memory the earlier ones left; the first that fails ends
the load, and then no run starts. -/
def Obligations.LoadRefusesExactlyTheBadImages : Prop :=
  (∀ (m : Memory) (bytes : List Byte),
    (∃ e, loadImage bytes m = .error e) ↔
      bytes.length < 2 ∨ bytes.length % 2 = 1 ∨
        ((bytes.getD 0 0).toNat * 256 + (bytes.getD 1 0).toNat)
          + (bytes.length / 2 - 1) > 65536) ∧
  (∀ m : Memory, loadImages [] m = .ok m) ∧
  (∀ (m : Memory) (rest : List (Option (List Byte))),
    loadImages (none :: rest) m = .error .unreadable) ∧
  (∀ (m : Memory) (bytes : List Byte) (rest : List (Option (List Byte))) (e : LoadError),
    loadImage bytes m = .error e → loadImages (some bytes :: rest) m = .error e) ∧
  (∀ (m m1 : Memory) (bytes : List Byte) (rest : List (Option (List Byte))),
    loadImage bytes m = .ok m1 → loadImages (some bytes :: rest) m = loadImages rest m1) ∧
  (∀ (gpr : Vector Word 8) (input : List Byte) (images : List (Option (List Byte)))
    (e : LoadError), boot gpr input images = .error e ↔ loadImages images [] = .error e) ∧
  (∀ (gpr : Vector Word 8) (input : List Byte) (images : List (Option (List Byte))),
    none ∈ images → ∃ e, boot gpr input images = .error e)
end

