-- ==== Sys2Proof/Laws/Decode.lean ====
section
/-! SUPPORT. The decoder and the encoder, field by field. -/

namespace Sys2Proof

/-- An opcode's value names that opcode (30_encoding.md R71). -/
@[simp] theorem opcodeOf_opcodeValue (o : Opcode) : opcodeOf (opcodeValue o) = o := by
  cases o <;> rfl

/-- An opcode field is the value of the opcode it names (R71): no two opcodes share a value. -/
@[simp] theorem opcodeValue_opcodeOf (f : BitVec 4) : opcodeValue (opcodeOf f) = f := by
  revert f; decide

/-- The bits of a placed field. -/
@[simp] theorem getLsbD_place {n : Nat} (lo : Nat) (f : BitVec n) (k : Nat) :
    (place lo f).getLsbD k = (decide (k < 16) && !decide (k < lo) && f.getLsbD (k - lo)) := by
  by_cases h : k < 16 <;> simp [place, h]

/-- The bits of a placed field, as `simp` writes them. -/
@[simp] theorem getElem_place {n : Nat} (lo : Nat) (f : BitVec n) (k : Nat) (h : k < 16) :
    (place lo f)[k] = (!decide (k < lo) && f.getLsbD (k - lo)) := by
  rw [← BitVec.getLsbD_eq_getElem, getLsbD_place]
  simp [h]

/-- The decoder, one opcode at a time (30_encoding.md R71 to R82). -/
theorem decode_of_opcode (w : Word) :
    decode w =
      match opcodeOf (w.extractLsb' 12 4) with
      | .br => .br (w.extractLsb' 9 3) (w.extractLsb' 0 9)
      | .add =>
        if w.extractLsb' 5 1 = 0#1 then
          .addReg (w.extractLsb' 9 3) (w.extractLsb' 6 3) (w.extractLsb' 0 3)
        else .addImm (w.extractLsb' 9 3) (w.extractLsb' 6 3) (w.extractLsb' 0 5)
      | .ld => .ld (w.extractLsb' 9 3) (w.extractLsb' 0 9)
      | .st => .st (w.extractLsb' 9 3) (w.extractLsb' 0 9)
      | .jsr =>
        if w.extractLsb' 11 1 = 1#1 then .jsr (w.extractLsb' 0 11)
        else .jsrr (w.extractLsb' 6 3)
      | .and =>
        if w.extractLsb' 5 1 = 0#1 then
          .andReg (w.extractLsb' 9 3) (w.extractLsb' 6 3) (w.extractLsb' 0 3)
        else .andImm (w.extractLsb' 9 3) (w.extractLsb' 6 3) (w.extractLsb' 0 5)
      | .ldr => .ldr (w.extractLsb' 9 3) (w.extractLsb' 6 3) (w.extractLsb' 0 6)
      | .str => .str (w.extractLsb' 9 3) (w.extractLsb' 6 3) (w.extractLsb' 0 6)
      | .rti => .rti
      | .not => .not (w.extractLsb' 9 3) (w.extractLsb' 6 3)
      | .ldi => .ldi (w.extractLsb' 9 3) (w.extractLsb' 0 9)
      | .sti => .sti (w.extractLsb' 9 3) (w.extractLsb' 0 9)
      | .jmp => selectJmp (w.extractLsb' 6 3)
      | .res => .res
      | .lea => .lea (w.extractLsb' 9 3) (w.extractLsb' 0 9)
      | .trap => selectTrap (w.extractLsb' 0 8) := rfl

/-- A one-bit field is its bit. -/
theorem extractLsb'_one (w : Word) (k : Nat) :
    w.extractLsb' k 1 = BitVec.ofBool (w.getLsbD k) := by
  ext j hj
  have : j = 0 := by omega
  subst this
  simp

/-- `selectTrap` by the vector's value (44_trap.md R161). -/
theorem selectTrap_eq (v : BitVec 8) :
    selectTrap v =
      if v = 0x20#8 then .getc else if v = 0x21#8 then .out else if v = 0x22#8 then .puts
      else if v = 0x23#8 then .inp else if v = 0x24#8 then .putsp else if v = 0x25#8 then .halt
      else .trap v := by
  have e : ∀ n : Nat, n < 256 → (v = BitVec.ofNat 8 n ↔ v.toNat = n) := fun n hn =>
    ⟨fun h => by rw [h]; simp [Nat.mod_eq_of_lt hn],
     fun h => by rw [← h]; simp⟩
  have e20 := e 0x20 (by omega)
  have e21 := e 0x21 (by omega)
  have e22 := e 0x22 (by omega)
  have e23 := e 0x23 (by omega)
  have e24 := e 0x24 (by omega)
  have e25 := e 0x25 (by omega)
  unfold selectTrap
  split <;> simp_all

/-- A vector that selects no service stays a TRAP. -/
theorem selectTrap_trap {v : BitVec 8} (h : isServiceVector v = false) :
    selectTrap v = .trap v := by
  have n : ∀ k : BitVec 8, isServiceVector k = true → v ≠ k := fun k hk e => by
    rw [e, hk] at h; exact Bool.noConfusion h
  rw [selectTrap_eq, if_neg (n 0x20#8 rfl), if_neg (n 0x21#8 rfl), if_neg (n 0x22#8 rfl),
    if_neg (n 0x23#8 rfl), if_neg (n 0x24#8 rfl), if_neg (n 0x25#8 rfl)]

/-- The low twelve bits of an instruction's word are its operand bits. -/
theorem getLsbD_encode_low (i : Instr) {k : Nat} (h : k < 12) :
    (encode i).getLsbD k = i.operandBits.getLsbD k := by
  simp [encode, h]

/-- A field of an instruction's word is what its operand bits say there. -/
theorem field_encode (i : Instr) {lo len : Nat} (x : BitVec len) (hlo : lo + len ≤ 12)
    (h : ∀ k, k < len → i.operandBits.getLsbD (lo + k) = x.getLsbD k) :
    (encode i).extractLsb' lo len = x := by
  ext k hk
  rw [BitVec.getElem_extractLsb', getLsbD_encode_low i (by omega), h k hk,
    BitVec.getLsbD_eq_getElem]

end Sys2Proof
end

