-- ==== Sys2Proof/Laws/State.lean ====
section
/-! SUPPORT. What each update of State leaves in each field: one lemma per field per update,
and the same through the accessors `reg` and `stored`. -/

namespace Sys2Proof.Machine

/-! ### setReg -/

@[simp] theorem State.setReg_regs (s : State) (i : RegIdx) (v : Word) : (s.setReg i v).regs = s.regs.set i.toNat v := rfl
@[simp] theorem State.setReg_pc (s : State) (i : RegIdx) (v : Word) : (s.setReg i v).pc = s.pc := rfl
@[simp] theorem State.setReg_cond (s : State) (i : RegIdx) (v : Word) : (s.setReg i v).cond = s.cond := rfl
@[simp] theorem State.setReg_running (s : State) (i : RegIdx) (v : Word) : (s.setReg i v).running = s.running := rfl
@[simp] theorem State.setReg_mem (s : State) (i : RegIdx) (v : Word) : (s.setReg i v).mem = s.mem := rfl
@[simp] theorem State.setReg_awaitInput (s : State) (i : RegIdx) (v : Word) : (s.setReg i v).awaitInput = s.awaitInput := rfl
@[simp] theorem State.setReg_input (s : State) (i : RegIdx) (v : Word) : (s.setReg i v).input = s.input := rfl
@[simp] theorem State.setReg_output (s : State) (i : RegIdx) (v : Word) : (s.setReg i v).output = s.output := rfl
@[simp] theorem State.stored_setReg (s : State) (i : RegIdx) (v : Word) (b : Word) : (s.setReg i v).stored b = s.stored b := rfl

/-! ### setFlags -/

@[simp] theorem State.setFlags_regs (s : State) (v : Word) : (s.setFlags v).regs = s.regs := rfl
@[simp] theorem State.setFlags_pc (s : State) (v : Word) : (s.setFlags v).pc = s.pc := rfl
@[simp] theorem State.setFlags_cond (s : State) (v : Word) : (s.setFlags v).cond = condOf v := rfl
@[simp] theorem State.setFlags_running (s : State) (v : Word) : (s.setFlags v).running = s.running := rfl
@[simp] theorem State.setFlags_mem (s : State) (v : Word) : (s.setFlags v).mem = s.mem := rfl
@[simp] theorem State.setFlags_awaitInput (s : State) (v : Word) : (s.setFlags v).awaitInput = s.awaitInput := rfl
@[simp] theorem State.setFlags_input (s : State) (v : Word) : (s.setFlags v).input = s.input := rfl
@[simp] theorem State.setFlags_output (s : State) (v : Word) : (s.setFlags v).output = s.output := rfl
@[simp] theorem State.reg_setFlags (s : State) (v : Word) (j : RegIdx) : (s.setFlags v).reg j = s.reg j := rfl
@[simp] theorem State.stored_setFlags (s : State) (v : Word) (b : Word) : (s.setFlags v).stored b = s.stored b := rfl

/-! ### setRegFlags -/

@[simp] theorem State.setRegFlags_regs (s : State) (i : RegIdx) (v : Word) : (s.setRegFlags i v).regs = s.regs.set i.toNat v := rfl
@[simp] theorem State.setRegFlags_pc (s : State) (i : RegIdx) (v : Word) : (s.setRegFlags i v).pc = s.pc := rfl
@[simp] theorem State.setRegFlags_cond (s : State) (i : RegIdx) (v : Word) : (s.setRegFlags i v).cond = condOf v := rfl
@[simp] theorem State.setRegFlags_running (s : State) (i : RegIdx) (v : Word) : (s.setRegFlags i v).running = s.running := rfl
@[simp] theorem State.setRegFlags_mem (s : State) (i : RegIdx) (v : Word) : (s.setRegFlags i v).mem = s.mem := rfl
@[simp] theorem State.setRegFlags_awaitInput (s : State) (i : RegIdx) (v : Word) : (s.setRegFlags i v).awaitInput = s.awaitInput := rfl
@[simp] theorem State.setRegFlags_input (s : State) (i : RegIdx) (v : Word) : (s.setRegFlags i v).input = s.input := rfl
@[simp] theorem State.setRegFlags_output (s : State) (i : RegIdx) (v : Word) : (s.setRegFlags i v).output = s.output := rfl
@[simp] theorem State.stored_setRegFlags (s : State) (i : RegIdx) (v : Word) (b : Word) : (s.setRegFlags i v).stored b = s.stored b := rfl

/-! ### jump -/

@[simp] theorem State.jump_regs (s : State) (t : Word) : (s.jump t).regs = s.regs := rfl
@[simp] theorem State.jump_pc (s : State) (t : Word) : (s.jump t).pc = t := rfl
@[simp] theorem State.jump_cond (s : State) (t : Word) : (s.jump t).cond = s.cond := rfl
@[simp] theorem State.jump_running (s : State) (t : Word) : (s.jump t).running = s.running := rfl
@[simp] theorem State.jump_mem (s : State) (t : Word) : (s.jump t).mem = s.mem := rfl
@[simp] theorem State.jump_awaitInput (s : State) (t : Word) : (s.jump t).awaitInput = s.awaitInput := rfl
@[simp] theorem State.jump_input (s : State) (t : Word) : (s.jump t).input = s.input := rfl
@[simp] theorem State.jump_output (s : State) (t : Word) : (s.jump t).output = s.output := rfl
@[simp] theorem State.reg_jump (s : State) (t : Word) (j : RegIdx) : (s.jump t).reg j = s.reg j := rfl
@[simp] theorem State.stored_jump (s : State) (t : Word) (b : Word) : (s.jump t).stored b = s.stored b := rfl

/-! ### memWrite -/

@[simp] theorem State.memWrite_regs (s : State) (a v : Word) : (s.memWrite a v).regs = s.regs := rfl
@[simp] theorem State.memWrite_pc (s : State) (a v : Word) : (s.memWrite a v).pc = s.pc := rfl
@[simp] theorem State.memWrite_cond (s : State) (a v : Word) : (s.memWrite a v).cond = s.cond := rfl
@[simp] theorem State.memWrite_running (s : State) (a v : Word) : (s.memWrite a v).running = s.running := rfl
@[simp] theorem State.memWrite_mem (s : State) (a v : Word) : (s.memWrite a v).mem = s.mem.write a.toNat v := rfl
@[simp] theorem State.memWrite_awaitInput (s : State) (a v : Word) : (s.memWrite a v).awaitInput = s.awaitInput := rfl
@[simp] theorem State.memWrite_input (s : State) (a v : Word) : (s.memWrite a v).input = s.input := rfl
@[simp] theorem State.memWrite_output (s : State) (a v : Word) : (s.memWrite a v).output = s.output := rfl
@[simp] theorem State.reg_memWrite (s : State) (a v : Word) (j : RegIdx) : (s.memWrite a v).reg j = s.reg j := rfl

/-! ### writeChar -/

@[simp] theorem State.writeChar_regs (s : State) (c : Byte) : (s.writeChar c).regs = s.regs := rfl
@[simp] theorem State.writeChar_pc (s : State) (c : Byte) : (s.writeChar c).pc = s.pc := rfl
@[simp] theorem State.writeChar_cond (s : State) (c : Byte) : (s.writeChar c).cond = s.cond := rfl
@[simp] theorem State.writeChar_running (s : State) (c : Byte) : (s.writeChar c).running = s.running := rfl
@[simp] theorem State.writeChar_mem (s : State) (c : Byte) : (s.writeChar c).mem = s.mem := rfl
@[simp] theorem State.writeChar_awaitInput (s : State) (c : Byte) : (s.writeChar c).awaitInput = s.awaitInput := rfl
@[simp] theorem State.writeChar_input (s : State) (c : Byte) : (s.writeChar c).input = s.input := rfl
@[simp] theorem State.writeChar_output (s : State) (c : Byte) : (s.writeChar c).output = s.output ++ [c] := rfl
@[simp] theorem State.reg_writeChar (s : State) (c : Byte) (j : RegIdx) : (s.writeChar c).reg j = s.reg j := rfl
@[simp] theorem State.stored_writeChar (s : State) (c : Byte) (b : Word) : (s.writeChar c).stored b = s.stored b := rfl

/-! ### writeChars -/

@[simp] theorem State.writeChars_regs (s : State) (cs : List Byte) : (s.writeChars cs).regs = s.regs := rfl
@[simp] theorem State.writeChars_pc (s : State) (cs : List Byte) : (s.writeChars cs).pc = s.pc := rfl
@[simp] theorem State.writeChars_cond (s : State) (cs : List Byte) : (s.writeChars cs).cond = s.cond := rfl
@[simp] theorem State.writeChars_running (s : State) (cs : List Byte) : (s.writeChars cs).running = s.running := rfl
@[simp] theorem State.writeChars_mem (s : State) (cs : List Byte) : (s.writeChars cs).mem = s.mem := rfl
@[simp] theorem State.writeChars_awaitInput (s : State) (cs : List Byte) : (s.writeChars cs).awaitInput = s.awaitInput := rfl
@[simp] theorem State.writeChars_input (s : State) (cs : List Byte) : (s.writeChars cs).input = s.input := rfl
@[simp] theorem State.writeChars_output (s : State) (cs : List Byte) : (s.writeChars cs).output = s.output ++ cs := rfl
@[simp] theorem State.reg_writeChars (s : State) (cs : List Byte) (j : RegIdx) : (s.writeChars cs).reg j = s.reg j := rfl
@[simp] theorem State.stored_writeChars (s : State) (cs : List Byte) (b : Word) : (s.writeChars cs).stored b = s.stored b := rfl

/-! ### link -/

@[simp] theorem State.link_regs (s : State) : (s.link).regs = s.regs.set 7 s.pc := rfl
@[simp] theorem State.link_pc (s : State) : (s.link).pc = s.pc := rfl
@[simp] theorem State.link_cond (s : State) : (s.link).cond = s.cond := rfl
@[simp] theorem State.link_running (s : State) : (s.link).running = s.running := rfl
@[simp] theorem State.link_mem (s : State) : (s.link).mem = s.mem := rfl
@[simp] theorem State.link_awaitInput (s : State) : (s.link).awaitInput = s.awaitInput := rfl
@[simp] theorem State.link_input (s : State) : (s.link).input = s.input := rfl
@[simp] theorem State.link_output (s : State) : (s.link).output = s.output := rfl
@[simp] theorem State.stored_link (s : State) (b : Word) : (s.link).stored b = s.stored b := rfl

/-! ### trapEntry -/

@[simp] theorem State.trapEntry_regs (s : State) : (s.trapEntry).regs = s.regs.set 7 s.pc := rfl
@[simp] theorem State.trapEntry_pc (s : State) : (s.trapEntry).pc = s.pc := rfl
@[simp] theorem State.trapEntry_cond (s : State) : (s.trapEntry).cond = s.cond := rfl
@[simp] theorem State.trapEntry_running (s : State) : (s.trapEntry).running = s.running := rfl
@[simp] theorem State.trapEntry_mem (s : State) : (s.trapEntry).mem = s.mem := rfl
@[simp] theorem State.trapEntry_awaitInput (s : State) : (s.trapEntry).awaitInput = s.awaitInput := rfl
@[simp] theorem State.trapEntry_input (s : State) : (s.trapEntry).input = s.input := rfl
@[simp] theorem State.trapEntry_output (s : State) : (s.trapEntry).output = s.output := rfl
@[simp] theorem State.stored_trapEntry (s : State) (b : Word) : (s.trapEntry).stored b = s.stored b := rfl

/-! ### deliver -/

@[simp] theorem State.deliver_regs (s : State) (c : Byte) : (s.deliver c).regs = s.regs.set 0 (zext8 c) := rfl
@[simp] theorem State.deliver_pc (s : State) (c : Byte) : (s.deliver c).pc = s.pc := rfl
@[simp] theorem State.deliver_cond (s : State) (c : Byte) : (s.deliver c).cond = condOf (zext8 c) := rfl
@[simp] theorem State.deliver_running (s : State) (c : Byte) : (s.deliver c).running = s.running := rfl
@[simp] theorem State.deliver_mem (s : State) (c : Byte) : (s.deliver c).mem = s.mem := rfl
@[simp] theorem State.deliver_awaitInput (s : State) (c : Byte) : (s.deliver c).awaitInput = s.awaitInput := rfl
@[simp] theorem State.deliver_input (s : State) (c : Byte) : (s.deliver c).input = s.input := rfl
@[simp] theorem State.deliver_output (s : State) (c : Byte) : (s.deliver c).output = s.output := rfl
@[simp] theorem State.stored_deliver (s : State) (c : Byte) (b : Word) : (s.deliver c).stored b = s.stored b := rfl

/-! ### hostAppend -/

@[simp] theorem State.hostAppend_regs (s : State) (cs : List Byte) : (s.hostAppend cs).regs = s.regs := rfl
@[simp] theorem State.hostAppend_pc (s : State) (cs : List Byte) : (s.hostAppend cs).pc = s.pc := rfl
@[simp] theorem State.hostAppend_cond (s : State) (cs : List Byte) : (s.hostAppend cs).cond = s.cond := rfl
@[simp] theorem State.hostAppend_running (s : State) (cs : List Byte) : (s.hostAppend cs).running = s.running := rfl
@[simp] theorem State.hostAppend_mem (s : State) (cs : List Byte) : (s.hostAppend cs).mem = s.mem := rfl
@[simp] theorem State.hostAppend_awaitInput (s : State) (cs : List Byte) : (s.hostAppend cs).awaitInput = s.awaitInput := rfl
@[simp] theorem State.hostAppend_input (s : State) (cs : List Byte) : (s.hostAppend cs).input = s.input ++ cs := rfl
@[simp] theorem State.hostAppend_output (s : State) (cs : List Byte) : (s.hostAppend cs).output = s.output := rfl
@[simp] theorem State.reg_hostAppend (s : State) (cs : List Byte) (j : RegIdx) : (s.hostAppend cs).reg j = s.reg j := rfl
@[simp] theorem State.stored_hostAppend (s : State) (cs : List Byte) (b : Word) : (s.hostAppend cs).stored b = s.stored b := rfl

/-! ### Registers -/

/-- A register reads back the last value written, and no other register changes (R20). -/
theorem State.reg_setReg (s : State) (i j : RegIdx) (v : Word) :
    (s.setReg i v).reg j = if j = i then v else s.reg j := by
  unfold State.reg State.setReg
  by_cases h : j = i
  · subst h; simp
  · have : i.toNat ≠ j.toNat := fun e => h (BitVec.eq_of_toNat_eq e.symm)
    simp [this, h]

@[simp] theorem State.reg_setReg_self (s : State) (i : RegIdx) (v : Word) :
    (s.setReg i v).reg i = v := by simp [State.reg_setReg]

theorem State.reg_setReg_ne (s : State) {i j : RegIdx} (v : Word) (h : j ≠ i) :
    (s.setReg i v).reg j = s.reg j := by simp [State.reg_setReg, h]

@[simp] theorem State.reg_setRegFlags (s : State) (i : RegIdx) (v : Word) (j : RegIdx) :
    (s.setRegFlags i v).reg j = (s.setReg i v).reg j := rfl

theorem State.reg_link (s : State) (j : RegIdx) :
    s.link.reg j = if j = 7#3 then s.pc else s.reg j := State.reg_setReg s 7#3 j s.pc

theorem State.reg_trapEntry (s : State) (j : RegIdx) :
    s.trapEntry.reg j = if j = 7#3 then s.pc else s.reg j := State.reg_setReg s 7#3 j s.pc

/-- A service that reads R0 sees the value from before the TRAP (44_trap.md R160). -/
@[simp] theorem State.reg_zero_trapEntry (s : State) :
    s.trapEntry.reg 0#3 = s.reg 0#3 := by
  simp [State.reg_trapEntry]

end Sys2Proof.Machine
end

