-- ==== Sys2Proof/Laws/Memory.lean ====
section
/-! SUPPORT. The laws of memory: read after write for every memory, and that a write keeps the
canonical form. -/

namespace Sys2Proof.Machine

theorem Memory.read_insert (m : Memory) (a b : Nat) (v : Word)
    (h : ∀ c ∈ m, c.1 ≠ a) :
    (m.insert a v).read b = if b = a then v else m.read b := by
  induction m with
  | nil => simp [Memory.insert, Memory.read, eq_comm]
  | cons c rest ih =>
    obtain ⟨k, w⟩ := c
    have hk : k ≠ a := h (k, w) (by simp)
    have ih := ih (fun c hc => h c (by simp [hc]))
    unfold Memory.insert
    split
    · simp [Memory.read, eq_comm]
    · simp only [Memory.read, ih]
      by_cases e : k = b
      · subst e; simp [hk]
      · simp [e]

theorem Memory.read_filter (m : Memory) (a b : Nat) :
    Memory.read (m.filter (fun c => c.1 != a)) b = if b = a then 0x0000#16 else m.read b := by
  induction m with
  | nil => simp [Memory.read]
  | cons c rest ih =>
    obtain ⟨k, w⟩ := c
    by_cases e : k = a
    · subst e
      simp only [List.filter_cons, bne_self_eq_false, Bool.false_eq_true, if_false, ih,
        Memory.read]
      by_cases hb : b = k
      · simp [hb]
      · simp [hb, Ne.symm hb]
    · simp only [List.filter_cons, bne_iff_ne, ne_eq, e, not_false_iff, if_true, Memory.read, ih]
      by_cases hb : k = b
      · subst hb; simp [e]
      · simp [hb]

/-- Read after write: the cell written holds the value, every other cell is as before. -/
theorem Memory.read_write (m : Memory) (a b : Nat) (v : Word) :
    (m.write a v).read b = if b = a then v else m.read b := by
  unfold Memory.write
  by_cases hv : v = 0x0000#16
  · simp only [hv, if_true]
    exact Memory.read_filter m a b
  · simp only [hv, if_false]
    rw [Memory.read_insert _ _ _ _ (fun c hc => by simpa using (List.mem_filter.1 hc).2),
      Memory.read_filter]
    by_cases e : b = a <;> simp [e]

/-- The canonical form, one cell at a time. -/
theorem Memory.wf_cons (k : Nat) (v : Word) (rest : Memory) :
    Memory.wf ((k, v) :: rest) = true ↔
      k < 65536 ∧ v ≠ 0x0000#16 ∧ (∀ c ∈ rest, k < c.1) ∧ Memory.wf rest = true := by
  simp [Memory.wf, and_assoc]

@[simp] theorem Memory.wf_nil : Memory.wf [] = true := rfl

theorem Memory.wf_filter (m : Memory) (p : Nat × Word → Bool) (h : m.wf = true) :
    Memory.wf (m.filter p) = true := by
  induction m with
  | nil => rfl
  | cons c rest ih =>
    obtain ⟨k, w⟩ := c
    obtain ⟨h1, h2, h3, h4⟩ := (Memory.wf_cons k w rest).1 h
    rw [List.filter_cons]
    split
    · exact (Memory.wf_cons _ _ _).2
        ⟨h1, h2, fun c hc => h3 c (List.mem_filter.1 hc).1, ih h4⟩
    · exact ih h4

theorem Memory.mem_insert {m : Memory} {a : Nat} {v : Word} {c : Nat × Word}
    (h : c ∈ m.insert a v) : c = (a, v) ∨ c ∈ m := by
  induction m with
  | nil => simpa [Memory.insert] using h
  | cons d rest ih =>
    obtain ⟨k, w⟩ := d
    unfold Memory.insert at h
    split at h
    · simpa using h
    · rcases List.mem_cons.1 h with h | h
      · exact .inr (by simp [h])
      · rcases ih h with h | h
        · exact .inl h
        · exact .inr (by simp [h])

theorem Memory.wf_insert (m : Memory) (a : Nat) (v : Word) (h : m.wf = true)
    (ha : a < 65536) (hv : v ≠ 0x0000#16) (hm : ∀ c ∈ m, c.1 ≠ a) : (m.insert a v).wf = true := by
  induction m with
  | nil => exact (Memory.wf_cons _ _ _).2 ⟨ha, hv, by simp, rfl⟩
  | cons c rest ih =>
    obtain ⟨k, w⟩ := c
    obtain ⟨h1, h2, h3, h4⟩ := (Memory.wf_cons k w rest).1 h
    have hka : k ≠ a := hm (k, w) (by simp)
    unfold Memory.insert
    split
    next hlt =>
      refine (Memory.wf_cons _ _ _).2 ⟨ha, hv, fun c hc => ?_, h⟩
      rcases List.mem_cons.1 hc with rfl | hc
      · exact hlt
      · exact Nat.lt_trans hlt (h3 c hc)
    next hge =>
      refine (Memory.wf_cons _ _ _).2
        ⟨h1, h2, fun c hc => ?_, ih h4 (fun c hc => hm c (by simp [hc]))⟩
      rcases Memory.mem_insert hc with rfl | hc
      · show k < a
        omega
      · exact h3 c hc

/-- A write keeps the canonical form. -/
theorem Memory.wf_write (m : Memory) (a : Nat) (v : Word) (h : m.wf = true)
    (ha : a < 65536) : (m.write a v).wf = true := by
  unfold Memory.write
  by_cases hv : v = 0x0000#16
  · simpa [hv] using Memory.wf_filter m _ h
  · simp only [hv, if_false]
    exact Memory.wf_insert _ _ _ (Memory.wf_filter m _ h) ha hv
      (fun c hc => by simpa using (List.mem_filter.1 hc).2)

/-- `MemWrite` and `Stored` (20_memory.md R45). -/
theorem State.stored_memWrite (s : State) (a b v : Word) :
    (s.memWrite a v).stored b = if b = a then v else s.stored b := by
  show Memory.read (s.mem.write a.toNat v) b.toNat = _
  rw [Memory.read_write]
  by_cases e : b = a
  · simp [e]
  · have : b.toNat ≠ a.toNat := fun h => e (BitVec.eq_of_toNat_eq h)
    simp [e, this, State.stored]


theorem State.memWrite_wf (s : State) (a v : Word) (h : s.mem.wf = true) :
    (s.memWrite a v).mem.wf = true :=
  Memory.wf_write s.mem a.toNat v h a.isLt

end Sys2Proof.Machine
end

