-- ==== Sys2Proof/Laws/Ops.lean ====
section
/-! SUPPORT. What each shared operation can do, said once. -/

namespace Sys2Proof.Machine

/-! ### Quiet: what a read, or a string being written, can do to a state -/

/-- `t` is `s` after keyboard polls and console output alone: only `input` (from its head),
`output` (at its end) and the two device cells may differ. -/
structure Quiet (s t : State) : Prop where
  regs : t.regs = s.regs
  pc : t.pc = s.pc
  cond : t.cond = s.cond
  running : t.running = s.running
  awaitInput : t.awaitInput = s.awaitInput
  output : ∃ out, t.output = s.output ++ out
  input : ∃ taken, s.input = taken ++ t.input
  stored : ∀ a, a ≠ kbsrAddr → a ≠ kbdrAddr → t.stored a = s.stored a
  wf : s.mem.wf = true → t.mem.wf = true

namespace Quiet

theorem refl (s : State) : Quiet s s :=
  ⟨rfl, rfl, rfl, rfl, rfl, ⟨[], by simp⟩, ⟨[], rfl⟩, fun _ _ _ => rfl, id⟩

theorem trans {s t u : State} (h : Quiet s t) (k : Quiet t u) : Quiet s u where
  regs := k.regs.trans h.regs
  pc := k.pc.trans h.pc
  cond := k.cond.trans h.cond
  running := k.running.trans h.running
  awaitInput := k.awaitInput.trans h.awaitInput
  output := by
    obtain ⟨o1, e1⟩ := h.output
    obtain ⟨o2, e2⟩ := k.output
    exact ⟨o1 ++ o2, by rw [e2, e1, List.append_assoc]⟩
  input := by
    obtain ⟨i1, e1⟩ := h.input
    obtain ⟨i2, e2⟩ := k.input
    exact ⟨i1 ++ i2, by rw [e1, e2, List.append_assoc]⟩
  stored := fun a h1 h2 => (k.stored a h1 h2).trans (h.stored a h1 h2)
  wf := fun w => k.wf (h.wf w)

theorem reg {s t : State} (h : Quiet s t) (i : RegIdx) : t.reg i = s.reg i := by
  simp only [State.reg, h.regs]

theorem writeChars (s : State) (cs : List Byte) : Quiet s (s.writeChars cs) :=
  ⟨rfl, rfl, rfl, rfl, rfl, ⟨cs, rfl⟩, ⟨[], rfl⟩, fun _ _ _ => rfl, id⟩

end Quiet

/-! ### The keyboard poll and the reads -/

/-- A poll that finds no key (20_memory.md R43). -/
theorem State.devicePoll_nil {s : State} (h : s.input = []) :
    s.devicePoll = s.memWrite kbsrAddr 0x0000#16 := by
  simp [State.devicePoll, State.readChar, h]

/-- A poll that finds a key (20_memory.md R43). -/
theorem State.devicePoll_cons {s : State} {c : Byte} {rest : List Byte}
    (h : s.input = c :: rest) :
    s.devicePoll =
      (({ s with input := rest }).memWrite kbsrAddr keyReady).memWrite kbdrAddr (zext8 c) := by
  simp [State.devicePoll, State.readChar, h]

theorem State.devicePoll_input (s : State) : s.devicePoll.input = s.input.tail := by
  cases h : s.input with
  | nil => simp [State.devicePoll_nil h, h]
  | cons c rest => simp [State.devicePoll_cons h]

@[simp] theorem State.devicePoll_output (s : State) : s.devicePoll.output = s.output := by
  cases h : s.input with
  | nil => simp [State.devicePoll_nil h]
  | cons c rest => simp [State.devicePoll_cons h]

/-- What KBSR holds after a poll (20_memory.md R43). -/
theorem State.devicePoll_kbsr (s : State) :
    s.devicePoll.stored kbsrAddr = if s.input = [] then 0x0000#16 else keyReady := by
  cases h : s.input with
  | nil => simp [State.devicePoll_nil h, State.stored_memWrite]
  | cons c rest =>
    have : kbsrAddr ≠ kbdrAddr := by decide
    simp [State.devicePoll_cons h, State.stored_memWrite, this]

theorem Quiet.devicePoll (s : State) : Quiet s s.devicePoll := by
  cases h : s.input with
  | nil =>
    rw [State.devicePoll_nil h]
    exact ⟨rfl, rfl, rfl, rfl, rfl, ⟨[], by simp⟩, ⟨[], rfl⟩,
      fun a h1 _ => by simp [State.stored_memWrite, h1], State.memWrite_wf s _ _⟩
  | cons c rest =>
    rw [State.devicePoll_cons h]
    exact ⟨rfl, rfl, rfl, rfl, rfl, ⟨[], by simp⟩, ⟨[c], by simp [h]⟩,
      fun a h1 h2 => by simp [State.stored_memWrite, h1, h2]; rfl,
      fun w => State.memWrite_wf _ _ _ (State.memWrite_wf _ _ _ w)⟩

/-- A read away from KBSR is pure (20_memory.md R44). -/
theorem State.memRead_pure {s : State} {a : Word} (h : a ≠ kbsrAddr) :
    s.memRead a = (s.stored a, s) := by simp [State.memRead, h]

/-- A read of KBSR polls, then reads (20_memory.md R42). -/
theorem State.memRead_kbsr (s : State) :
    s.memRead kbsrAddr = (s.devicePoll.stored kbsrAddr, s.devicePoll) := by
  simp [State.memRead]

theorem Quiet.memRead (s : State) (a : Word) : Quiet s (s.memRead a).2 := by
  by_cases h : a = kbsrAddr
  · subst h; rw [State.memRead_kbsr]; exact Quiet.devicePoll s
  · rw [State.memRead_pure h]; exact Quiet.refl s

@[simp] theorem State.memRead_output (s : State) (a : Word) :
    (s.memRead a).2.output = s.output := by
  by_cases h : a = kbsrAddr
  · subst h; rw [State.memRead_kbsr]; exact State.devicePoll_output s
  · rw [State.memRead_pure h]

/-- The value a read returns is what the cell holds after it (20_memory.md R42). -/
theorem State.memRead_fst (s : State) (a : Word) :
    (s.memRead a).1 = (s.memRead a).2.stored a := rfl

/-! ### Fetch -/

@[simp] theorem State.fetch_fst (s : State) : s.fetch.1 = (s.memRead s.pc).1 := rfl

theorem State.fetch_snd (s : State) : s.fetch.2 = (s.memRead s.pc).2.jump (s.pc + 1#16) := rfl

@[simp] theorem State.fetch_pc (s : State) : s.fetch.2.pc = s.pc + 1#16 := rfl

/-- Away from KBSR a fetch changes `pc` alone (40_cycle.md R101). -/
theorem State.fetch_pure {s : State} (h : s.pc ≠ kbsrAddr) :
    s.fetch = (s.stored s.pc, s.jump (s.pc + 1#16)) := by
  simp [State.fetch, State.memRead_pure h]

/-- A fetch, but for `pc`, is a read. -/
theorem Quiet.fetch (s : State) : Quiet (s.jump (s.pc + 1#16)) s.fetch.2 := by
  have h := Quiet.memRead s s.pc
  exact ⟨h.regs, rfl, h.cond, h.running, h.awaitInput, h.output, h.input, h.stored, h.wf⟩

/-! ### Loads and stores -/

theorem State.load_eq (s : State) (dr : RegIdx) (ea : Word) :
    s.load dr ea =
      { (s.memRead ea).2 with
        regs := (s.memRead ea).2.regs.set dr.toNat (s.memRead ea).1,
        cond := condOf (s.memRead ea).1 } := rfl

/-! ### Waiting for a character -/

/-- GETC from its ReadChar on, with a character there (44_trap.md R162). -/
theorem State.getcRead_cons {s : State} {c : Byte} {rest : List Byte}
    (h : s.input = c :: rest) :
    s.getcRead =
      { s with
        regs := s.regs.set 0 (zext8 c), cond := condOf (zext8 c), input := rest,
        awaitInput := .none } := by
  simp [State.getcRead, State.readChar, h, State.deliver, State.setRegFlags, State.setReg,
    State.setFlags]

/-- GETC from its ReadChar on, with no character there (R171). -/
theorem State.getcRead_nil {s : State} (h : s.input = []) :
    s.getcRead = { s with awaitInput := .getc } := by
  simp [State.getcRead, State.readChar, h]

/-- IN from its ReadChar on, with a character there (44_trap.md R165). -/
theorem State.inRead_cons {s : State} {c : Byte} {rest : List Byte}
    (h : s.input = c :: rest) :
    s.inRead =
      { s with
        regs := s.regs.set 0 (zext8 c), cond := condOf (zext8 c), input := rest,
        output := s.output ++ [c], awaitInput := .none } := by
  simp [State.inRead, State.readChar, h, State.deliver, State.setRegFlags, State.setReg,
    State.setFlags, State.writeChar]

/-- IN from its ReadChar on, with no character there (R171). -/
theorem State.inRead_nil {s : State} (h : s.input = []) :
    s.inRead = { s with awaitInput := .inp } := by
  simp [State.inRead, State.readChar, h]

/-- GETC from its ReadChar on: it delivers a character, or waits. -/
theorem State.getcRead_cases (s : State) :
    (∃ c rest, s.input = c :: rest ∧
      s.getcRead =
        { s with
          regs := s.regs.set 0 (zext8 c), cond := condOf (zext8 c), input := rest,
          awaitInput := .none }) ∨
      (s.input = [] ∧ s.getcRead = { s with awaitInput := .getc }) := by
  cases h : s.input with
  | nil => exact .inr ⟨rfl, by rw [State.getcRead_nil h]; simp [h]⟩
  | cons c rest => exact .inl ⟨c, rest, rfl, State.getcRead_cons h⟩

/-- IN from its ReadChar on: it echoes and delivers a character, or waits. -/
theorem State.inRead_cases (s : State) :
    (∃ c rest, s.input = c :: rest ∧
      s.inRead =
        { s with
          regs := s.regs.set 0 (zext8 c), cond := condOf (zext8 c), input := rest,
          output := s.output ++ [c], awaitInput := .none }) ∨
      (s.input = [] ∧ s.inRead = { s with awaitInput := .inp }) := by
  cases h : s.input with
  | nil => exact .inr ⟨rfl, by rw [State.inRead_nil h]; simp [h]⟩
  | cons c rest => exact .inl ⟨c, rest, rfl, State.inRead_cons h⟩

end Sys2Proof.Machine
end

