-- ==== Sys2Proof/Laws/Strings.lean ====
section
/-! SUPPORT. The string scans of PUTS and PUTSP: what they can do, and how far they go. -/

namespace Sys2Proof.Machine

/-- `StrRead` as 20_memory.md R58 writes it: the parameter decides, at every address. -/
theorem State.strRead_eq (s : State) (a : Word) :
    s.strRead a = if Config.trapStrDeviceRead then s.memRead a else (s.stored a, s) := by
  by_cases h : a = kbsrAddr
  · simp [State.strRead, h]
  · simp [State.strRead, h, State.memRead_pure h]

theorem State.strRead_pure {s : State} {a : Word}
    (h : a ≠ kbsrAddr ∨ Config.trapStrDeviceRead = false) :
    s.strRead a = (s.stored a, s) := by
  rcases h with h | h <;> simp [State.strRead, h]

theorem Quiet.strRead (s : State) (a : Word) : Quiet s (s.strRead a).2 := by
  rw [State.strRead_eq]
  split
  · exact Quiet.memRead s a
  · exact Quiet.refl s

/-- PUTS ends at a zero word (44_trap.md R164). -/
theorem putsChars_eq_none (w : Word) : putsChars w = none ↔ w = 0x0000#16 := by
  unfold putsChars
  split <;> simp [*]

/-- PUTSP ends at a word whose low byte is zero (44_trap.md R166). -/
theorem putspChars_eq_none (w : Word) : putspChars w = none ↔ lowByte w = 0x00#8 := by
  unfold putspChars
  split <;> simp [*]

theorem scanWords_zero (chars : Word → Option (List Byte)) (a : Word) (s : State) :
    scanWords chars 0 a s = (false, s) := rfl

/-- The scan at a terminator. -/
theorem scanWords_stop {chars : Word → Option (List Byte)} {n : Nat} {a : Word} {s : State}
    (h : chars (s.strRead a).1 = none) :
    scanWords chars (n + 1) a s = (true, (s.strRead a).2) := by
  simp [scanWords, h]

/-- The scan at a word that is written. -/
theorem scanWords_go {chars : Word → Option (List Byte)} {n : Nat} {a : Word} {s : State}
    {cs : List Byte} (h : chars (s.strRead a).1 = some cs) :
    scanWords chars (n + 1) a s =
      scanWords chars n (a + 1#16) ((s.strRead a).2.writeChars cs) := by
  simp [scanWords, h]

/-- A scan polls and writes to the console, and does nothing else. -/
theorem Quiet.scanWords (chars : Word → Option (List Byte)) (n : Nat) (a : Word) (s : State) :
    Quiet s (scanWords chars n a s).2 := by
  induction n generalizing a s with
  | zero => exact Quiet.refl s
  | succ n ih =>
    cases h : chars (s.strRead a).1 with
    | none => rw [scanWords_stop h]; exact Quiet.strRead s a
    | some cs =>
      rw [scanWords_go h]
      exact ((Quiet.strRead s a).trans (Quiet.writeChars _ cs)).trans (ih _ _)

/-- A string service polls and writes to the console, or stops with `StringUnterminated`. -/
theorem scanString_cases (chars : Word → Option (List Byte)) (n : Nat) (a : Word) (s : State) :
    (∃ t, scanString chars n a s = .next t ∧ Quiet s t) ∨
      scanString chars n a s = .fault .stringUnterminated := by
  induction n generalizing a s with
  | zero => exact .inr rfl
  | succ n ih =>
    have q := Quiet.scanWords chars 65536 a s
    rw [scanString]
    split
    · exact .inl ⟨_, rfl, q⟩
    · split
      · rcases ih a (Machine.scanWords chars 65536 a s).2 with ⟨t, e, qt⟩ | e
        · exact .inl ⟨t, e, q.trans qt⟩
        · exact .inr e
      · exact .inr rfl

theorem writeString_cases (chars : Word → Option (List Byte)) (s : State) :
    (∃ t, writeString chars s = .next t ∧ Quiet s t) ∨
      writeString chars s = .fault .stringUnterminated :=
  scanString_cases chars _ _ s

/-! ### The cells read directly -/

/-- With the cells read directly a scan leaves memory and input alone. -/
theorem scanWords_direct_frame (hd : Config.trapStrDeviceRead = false)
    (chars : Word → Option (List Byte)) (n : Nat) (a : Word) (s : State) :
    (scanWords chars n a s).2.mem = s.mem ∧ (scanWords chars n a s).2.input = s.input := by
  induction n generalizing a s with
  | zero => exact ⟨rfl, rfl⟩
  | succ n ih =>
    have r := State.strRead_pure (s := s) (a := a) (.inr hd)
    cases h : chars (s.strRead a).1 with
    | none => rw [scanWords_stop h, r]; exact ⟨rfl, rfl⟩
    | some cs => rw [scanWords_go h, r]; exact ih _ _

/-- A string service that reads the cells directly and completes leaves memory and input alone. -/
theorem writeString_direct_frame (hd : Config.trapStrDeviceRead = false)
    {chars : Word → Option (List Byte)} {s t : State} (h : writeString chars s = .next t) :
    t.mem = s.mem ∧ t.input = s.input := by
  rw [writeString, scanString] at h
  split at h
  · cases h; exact scanWords_direct_frame hd chars _ _ s
  · simp [hd] at h

/-- With the cells read directly, `n` words without a terminator are `n` cells without one. -/
theorem scanWords_direct (hd : Config.trapStrDeviceRead = false)
    (chars : Word → Option (List Byte)) (n : Nat) (a : Word) (s : State) :
    (scanWords chars n a s).1 = false ↔
      ∀ k < n, chars (s.stored (a + BitVec.ofNat 16 k)) ≠ none := by
  induction n generalizing a s with
  | zero => simp [scanWords_zero]
  | succ n ih =>
    have r := State.strRead_pure (s := s) (a := a) (.inr hd)
    cases h : chars (s.strRead a).1 with
    | none =>
      rw [scanWords_stop h]
      refine ⟨fun e => Bool.noConfusion e, fun e => absurd ?_ (e 0 (Nat.succ_pos n))⟩
      rw [r] at h
      simpa using h
    | some cs =>
      rw [scanWords_go h, ih, r]
      rw [r] at h
      have shift : ∀ k : Nat, a + 1#16 + BitVec.ofNat 16 k = a + BitVec.ofNat 16 (k + 1) := by
        intro k
        rw [BitVec.add_assoc, BitVec.add_comm 1#16, BitVec.ofNat_add]
      constructor
      · intro e k hk
        cases k with
        | zero => simp [h]
        | succ k => rw [← shift]; exact e k (by omega)
      · intro e k hk
        show chars (s.stored _) ≠ none
        rw [shift]
        exact e (k + 1) (by omega)

/-- With the cells read directly, a pass finds no terminator exactly when memory holds none. -/
theorem scanWords_direct_all (hd : Config.trapStrDeviceRead = false)
    (chars : Word → Option (List Byte)) (a : Word) (s : State) :
    (scanWords chars 65536 a s).1 = false ↔ ∀ b, chars (s.stored b) ≠ none := by
  rw [scanWords_direct hd]
  refine ⟨fun h b => ?_, fun h k _ => h _⟩
  have := h (b - a).toNat (b - a).isLt
  rwa [BitVec.ofNat_toNat, BitVec.setWidth_eq, BitVec.add_comm, BitVec.sub_add_cancel] at this

/-! ### The device read -/

/-- With the device read, a scan that passes KBSR without a terminator has taken a character,
since a poll without one reads zero. -/
theorem scanWords_device_consumes (hd : Config.trapStrDeviceRead = true)
    {chars : Word → Option (List Byte)} (h0 : chars 0x0000#16 = none) (n : Nat) (a : Word) (s : State)
    (hn : (kbsrAddr - a).toNat < n) (h : (scanWords chars n a s).1 = false) :
    (scanWords chars n a s).2.input.length < s.input.length := by
  induction n generalizing a s with
  | zero => omega
  | succ n ih =>
    have rest : ∀ u : State,
        (scanWords chars n (a + 1#16) u).2.input.length ≤ u.input.length := by
      intro u
      obtain ⟨taken, e⟩ := (Quiet.scanWords chars n (a + 1#16) u).input
      rw [e]
      simp
    cases hc : chars (s.strRead a).1 with
    | none => rw [scanWords_stop hc] at h; exact Bool.noConfusion h
    | some cs =>
      rw [scanWords_go hc] at h ⊢
      by_cases ha : a = kbsrAddr
      · have r : s.strRead a = (s.devicePoll.stored kbsrAddr, s.devicePoll) := by
          rw [State.strRead_eq, hd, ha, State.memRead_kbsr]
          rfl
        rw [r] at hc ⊢
        refine Nat.lt_of_le_of_lt (rest _) ?_
        rw [State.writeChars_input, State.devicePoll_input]
        cases hi : s.input with
        | nil => rw [State.devicePoll_kbsr, hi, if_pos rfl, h0] at hc; cases hc
        | cons c cs => simp
      · have r := State.strRead_pure (s := s) (a := a) (.inl ha)
        rw [r] at h ⊢
        refine ih (a + 1#16) _ ?_ h
        have ne : kbsrAddr - a ≠ 0 := fun e =>
          ha ((BitVec.sub_eq_iff_eq_add.1 e).trans (BitVec.zero_add a)).symm
        have pos : 0 < (kbsrAddr - a).toNat :=
          Nat.pos_of_ne_zero fun e => ne (BitVec.eq_of_toNat_eq e)
        have : (kbsrAddr - (a + 1#16)).toNat = (kbsrAddr - a).toNat - 1 := by
          rw [← BitVec.sub_sub, BitVec.toNat_sub]
          have := (kbsrAddr - a).isLt
          show (2 ^ 16 - 1 + (kbsrAddr - a).toNat) % 2 ^ 16 = _
          omega
        omega

/-- With the device read a string service always completes: each pass takes a character, and
the pass after the last one reads zero from KBSR (44_trap.md R170). -/
theorem scanString_device (hd : Config.trapStrDeviceRead = true)
    {chars : Word → Option (List Byte)} (h0 : chars 0x0000#16 = none) (n : Nat) (a : Word) (s : State)
    (hn : s.input.length < n) : ∃ t, scanString chars n a s = .next t := by
  induction n generalizing s with
  | zero => omega
  | succ n ih =>
    rw [scanString]
    cases h : (scanWords chars 65536 a s).1 with
    | true => exact ⟨_, rfl⟩
    | false =>
      have := scanWords_device_consumes hd h0 65536 a s (kbsrAddr - a).isLt h
      obtain ⟨t, e⟩ := ih (scanWords chars 65536 a s).2 (by omega)
      exact ⟨t, by simpa [hd] using e⟩

/-- When a string service stops unterminated (44_trap.md R170). -/
theorem writeString_unterminated {chars : Word → Option (List Byte)} (h0 : chars 0x0000#16 = none)
    (s : State) :
    writeString chars s = .fault .stringUnterminated ↔
      Config.trapStrDeviceRead = false ∧ ∀ b, chars (s.stored b) ≠ none := by
  cases hd : Config.trapStrDeviceRead with
  | true =>
    obtain ⟨t, e⟩ := scanString_device hd h0 (s.input.length + 1) (s.reg 0#3) s (Nat.lt_succ_self _)
    rw [writeString, e]
    simp
  | false =>
    rw [← scanWords_direct_all hd chars (s.reg 0#3) s, writeString, scanString]
    cases (scanWords chars 65536 (s.reg 0#3) s).1 <;> simp [hd]

/-! ### A string in memory -/

/-- A scan over words that are written and then a terminator, away from a device read. -/
theorem scanWords_string (chars : Word → Option (List Byte)) (written : Word → List Byte)
    (n : Nat) (ws : List Word) (a : Word) (s : State) (hlen : ws.length < n)
    (hw : ∀ w ∈ ws, chars w = some (written w))
    (hs : ∀ (k : Nat) (w : Word), ws[k]? = some w → s.stored (a + BitVec.ofNat 16 k) = w)
    (hend : chars (s.stored (a + BitVec.ofNat 16 ws.length)) = none)
    (hd : (∀ k : Nat, k ≤ ws.length → a + BitVec.ofNat 16 k ≠ kbsrAddr) ∨
      Config.trapStrDeviceRead = false) :
    scanWords chars n a s = (true, s.writeChars (ws.flatMap written)) := by
  induction ws generalizing n a s with
  | nil =>
    obtain ⟨n, rfl⟩ : ∃ m, n = m + 1 := ⟨n - 1, by simp at hlen; omega⟩
    have r : s.strRead a = (s.stored a, s) :=
      State.strRead_pure (hd.imp (fun h => by simpa using h 0 (Nat.le_refl _)) id)
    have e : chars (s.strRead a).1 = none := by rw [r]; simpa using hend
    rw [scanWords_stop e, r]
    simp [State.writeChars]
  | cons w ws ih =>
    obtain ⟨n, rfl⟩ : ∃ m, n = m + 1 := ⟨n - 1, by simp at hlen; omega⟩
    have r : s.strRead a = (s.stored a, s) :=
      State.strRead_pure (hd.imp (fun h => by simpa using h 0 (Nat.zero_le _)) id)
    have ew : s.stored a = w := by simpa using hs 0 w rfl
    have e : chars (s.strRead a).1 = some (written w) := by
      rw [r, ew]; exact hw w (by simp)
    have shift : ∀ k : Nat, a + 1#16 + BitVec.ofNat 16 k = a + BitVec.ofNat 16 (k + 1) := by
      intro k
      rw [BitVec.add_assoc, BitVec.add_comm 1#16, BitVec.ofNat_add]
    rw [scanWords_go e, r]
    rw [ih n (a + 1#16) _ (by simpa using hlen) (fun v hv => hw v (by simp [hv]))
      (fun k v hk => by rw [shift]; exact hs (k + 1) v (by simpa using hk))
      (by rw [shift]; simpa using hend)
      (hd.imp (fun h k hk => by rw [shift]; exact h (k + 1) (by simpa using hk)) id)]
    simp [State.writeChars]

end Sys2Proof.Machine
end

