-- ==== Sys2Proof/Laws/Exec.lean ====
section
/-! SUPPORT. What each instruction does, in terms of the shared operations, and what a step can
do. Later proofs cite these instead of unfolding `exec` and `step`. -/

namespace Sys2Proof.Machine

/-! ### One equation per instruction -/

theorem exec_br (nzp : BitVec 3) (off : BitVec 9) (s : State) :
    exec (.br nzp off) s =
      .next (if branchTaken nzp s.cond then s.jump (s.pcRel9 off) else s) := rfl

theorem exec_addReg (dr sr1 sr2 : RegIdx) (s : State) :
    exec (.addReg dr sr1 sr2) s = .next (s.setRegFlags dr (s.reg sr1 + s.reg sr2)) := rfl

theorem exec_addImm (dr sr1 : RegIdx) (imm : BitVec 5) (s : State) :
    exec (.addImm dr sr1 imm) s = .next (s.setRegFlags dr (s.reg sr1 + sext imm)) := rfl

theorem exec_andReg (dr sr1 sr2 : RegIdx) (s : State) :
    exec (.andReg dr sr1 sr2) s = .next (s.setRegFlags dr (s.reg sr1 &&& s.reg sr2)) := rfl

theorem exec_andImm (dr sr1 : RegIdx) (imm : BitVec 5) (s : State) :
    exec (.andImm dr sr1 imm) s = .next (s.setRegFlags dr (s.reg sr1 &&& sext imm)) := rfl

theorem exec_not (dr sr : RegIdx) (s : State) :
    exec (.not dr sr) s = .next (s.setRegFlags dr (~~~s.reg sr)) := rfl

theorem exec_ld (dr : RegIdx) (off : BitVec 9) (s : State) :
    exec (.ld dr off) s = .next (s.load dr (s.pcRel9 off)) := rfl

theorem exec_ldi (dr : RegIdx) (off : BitVec 9) (s : State) :
    exec (.ldi dr off) s = .next ((s.indirect9 off).2.load dr (s.indirect9 off).1) := rfl

theorem exec_ldr (dr base : RegIdx) (off : BitVec 6) (s : State) :
    exec (.ldr dr base off) s = .next (s.load dr (s.baseOff6 base off)) := rfl

theorem exec_lea (dr : RegIdx) (off : BitVec 9) (s : State) :
    exec (.lea dr off) s = .next (s.setRegFlags dr (s.pcRel9 off)) := rfl

theorem exec_st (sr : RegIdx) (off : BitVec 9) (s : State) :
    exec (.st sr off) s = .next (s.memWrite (s.pcRel9 off) (s.reg sr)) := rfl

theorem exec_sti (sr : RegIdx) (off : BitVec 9) (s : State) :
    exec (.sti sr off) s =
      .next ((s.indirect9 off).2.memWrite (s.indirect9 off).1 (s.reg sr)) := rfl

theorem exec_str (sr base : RegIdx) (off : BitVec 6) (s : State) :
    exec (.str sr base off) s = .next (s.memWrite (s.baseOff6 base off) (s.reg sr)) := rfl

theorem exec_jmp (base : RegIdx) (s : State) :
    exec (.jmp base) s = .next (s.jump (s.reg base)) := rfl

theorem exec_ret (s : State) : exec .ret s = .next (s.jump (s.reg 7#3)) := rfl

theorem exec_jsr (off : BitVec 11) (s : State) :
    exec (.jsr off) s = .next (s.link.jump (s.pcRel11 off)) := rfl

theorem exec_jsrr (base : RegIdx) (s : State) :
    exec (.jsrr base) s = .next (s.link.jump (s.link.reg base)) := rfl

theorem exec_rti (s : State) : exec .rti s = .next s := rfl

theorem exec_res (s : State) : exec .res s = .next s := rfl

theorem exec_getc (s : State) : exec .getc s = .next s.trapEntry.getcRead := rfl

theorem exec_out (s : State) :
    exec .out s = .next (s.trapEntry.writeChar (lowByte (s.trapEntry.reg 0#3))) := rfl

theorem exec_puts (s : State) : exec .puts s = writeString putsChars s.trapEntry := rfl

theorem exec_inp (s : State) :
    exec .inp s = .next (s.trapEntry.writeChars Config.inPrompt).inRead := rfl

theorem exec_putsp (s : State) : exec .putsp s = writeString putspChars s.trapEntry := rfl

theorem exec_halt (s : State) :
    exec .halt s =
      .next { s.trapEntry.writeChars Config.haltNotice with running := false } := rfl

/-- TRAP by the value of its vector (44_trap.md R161, R168). -/
theorem exec_trap (v : BitVec 8) (s : State) :
    exec (.trap v) s =
      if v = 0x20#8 then exec .getc s else if v = 0x21#8 then exec .out s
      else if v = 0x22#8 then exec .puts s else if v = 0x23#8 then exec .inp s
      else if v = 0x24#8 then exec .putsp s else if v = 0x25#8 then exec .halt s
      else .next s.trapEntry := by
  have e : ∀ n : Nat, n < 256 → (v = BitVec.ofNat 8 n ↔ v.toNat = n) := fun n hn =>
    ⟨fun h => by rw [h]; simp [Nat.mod_eq_of_lt hn], fun h => by rw [← h]; simp⟩
  have e20 := e 0x20 (by omega)
  have e21 := e 0x21 (by omega)
  have e22 := e 0x22 (by omega)
  have e23 := e 0x23 (by omega)
  have e24 := e 0x24 (by omega)
  have e25 := e 0x25 (by omega)
  show trapDispatch v s.trapEntry = _
  unfold trapDispatch
  split <;> simp_all <;> rfl

/-- What holds of the named services and of an unknown vector holds of TRAP: the premises are
the seven things TRAP can be (44_trap.md R161). -/
theorem trap_cases {P : Host.Outcome State Fault Refusal → Prop} {s : State}
    {v : BitVec 8}
    (hgetc : v = 0x20#8 → P (exec .getc s))
    (hout : v = 0x21#8 → P (exec .out s))
    (hputs : v = 0x22#8 → P (exec .puts s))
    (hinp : v = 0x23#8 → P (exec .inp s))
    (hputsp : v = 0x24#8 → P (exec .putsp s))
    (hhalt : v = 0x25#8 → P (exec .halt s))
    (hother : v ∉ [0x20#8, 0x21#8, 0x22#8, 0x23#8, 0x24#8, 0x25#8] →
      P (.next s.trapEntry)) :
    P (exec (.trap v) s) := by
  rw [exec_trap]
  split_ifs with h1 h2 h3 h4 h5 h6
  · exact hgetc h1
  · exact hout h2
  · exact hputs h3
  · exact hinp h4
  · exact hputsp h5
  · exact hhalt h6
  · exact hother (by simp [h1, h2, h3, h4, h5, h6])

/-- PUTS completes after polls and output alone, or stops unterminated. -/
theorem exec_puts_cases (s : State) :
    (∃ t, exec .puts s = .next t ∧ Quiet s.trapEntry t) ∨
      exec .puts s = .fault .stringUnterminated := writeString_cases putsChars s.trapEntry

/-- PUTSP completes after polls and output alone, or stops unterminated. -/
theorem exec_putsp_cases (s : State) :
    (∃ t, exec .putsp s = .next t ∧ Quiet s.trapEntry t) ∨
      exec .putsp s = .fault .stringUnterminated := writeString_cases putspChars s.trapEntry

/-- PUTS that reads the cells directly leaves memory and input alone (20_memory.md R58). -/
theorem exec_puts_direct (hd : Config.trapStrDeviceRead = false) {s t : State}
    (h : exec .puts s = .next t) : t.mem = s.mem ∧ t.input = s.input :=
  writeString_direct_frame (chars := putsChars) (s := s.trapEntry) hd h

/-- PUTSP that reads the cells directly leaves memory and input alone (20_memory.md R58). -/
theorem exec_putsp_direct (hd : Config.trapStrDeviceRead = false) {s t : State}
    (h : exec .putsp s = .next t) : t.mem = s.mem ∧ t.input = s.input :=
  writeString_direct_frame (chars := putspChars) (s := s.trapEntry) hd h

/-- What holds of every instruction but TRAP, and of the trap entry alone, holds of every
instruction. -/
theorem exec_induction {P : Host.Outcome State Fault Refusal → Prop} (i : Instr) (s : State)
    (hnamed : ∀ j : Instr, (∀ v, j ≠ .trap v) → P (exec j s)) (hother : P (.next s.trapEntry)) :
    P (exec i s) := by
  by_cases hi : ∃ v, i = .trap v
  · obtain ⟨v, rfl⟩ := hi
    exact trap_cases (fun _ => hnamed _ (by simp)) (fun _ => hnamed _ (by simp))
      (fun _ => hnamed _ (by simp)) (fun _ => hnamed _ (by simp)) (fun _ => hnamed _ (by simp))
      (fun _ => hnamed _ (by simp)) (fun _ => hother)
  · exact hnamed i (by simpa using hi)

/-- An instruction completes, or is a string service that found no terminator. -/
theorem exec_next_or_unterminated (i : Instr) (s : State) :
    (∃ t, exec i s = .next t) ∨ exec i s = .fault .stringUnterminated := by
  refine exec_induction
    (P := fun o => (∃ t, o = .next t) ∨ o = .fault .stringUnterminated) i s ?_ (.inl ⟨_, rfl⟩)
  intro j hj
  cases j
  case trap v => exact absurd rfl (hj v)
  case puts => exact (exec_puts_cases s).imp (fun ⟨t, h, _⟩ => ⟨t, h⟩) id
  case putsp => exact (exec_putsp_cases s).imp (fun ⟨t, h, _⟩ => ⟨t, h⟩) id
  all_goals exact .inl ⟨_, rfl⟩

/-! ### Steps -/

/-- A running machine that does not wait executes the fetched instruction. -/
theorem step_running {s : State} (h : s.running = true) (hw : s.awaitInput = .none) :
    step s = exec (decode s.fetch.1) s.fetch.2 := by
  simp [step, h, hw]

/-- A halted machine has no step. -/
theorem step_halted {s : State} (h : s.running = false) : step s = .fault .halted := by
  simp [step, h]

/-- A waiting machine goes on from its ReadChar. -/
theorem step_waiting {s : State} (h : s.running = true) (hw : s.awaitInput ≠ .none) :
    step s = resumeWait s := by
  cases e : s.awaitInput with
  | none => exact absurd e hw
  | getc => simp [step, h, e]
  | inp => simp [step, h, e]

/-- Without input the wait goes on. -/
theorem resumeWait_nil {s : State} (h : s.input = []) :
    resumeWait s = .fault .awaitInput := by
  simp [resumeWait, State.poll, h]

/-- With a character there, GETC and IN end. -/
theorem resumeWait_cons {s : State} {c : Byte} {rest : List Byte} (h : s.input = c :: rest) :
    resumeWait s =
      match s.awaitInput with
      | .none => .next s
      | .getc => .next s.getcRead
      | .inp => .next s.inRead := by
  cases e : s.awaitInput <;> simp [resumeWait, State.poll, h, e]

end Sys2Proof.Machine
end

