-- ==== Sys2Proof/Laws/Image.lean ====
section
/-! SUPPORT. The Image Loader (70_reset_and_hazards.md R214 to R216). -/

namespace Sys2Proof.Machine

/-- A big-endian word is its high byte times 256 and its low byte. -/
theorem toNat_bigEndian (hi lo : Byte) :
    (bigEndian hi lo).toNat = hi.toNat * 256 + lo.toNat := by
  rw [bigEndian, BitVec.toNat_append, Nat.shiftLeft_eq, Nat.mul_comm]
  exact (Nat.two_pow_add_eq_or_of_lt (i := 8) lo.isLt hi.toNat).symm

/-- A word is the big-endian word of its bytes. -/
theorem bigEndian_bytes (w : Word) :
    bigEndian (w.extractLsb' 8 8) (w.extractLsb' 0 8) = w := by
  unfold bigEndian
  ext k hk
  rw [BitVec.getElem_append]
  split
  · simp; exact BitVec.getLsbD_eq_getElem hk
  · rename_i h
    simp
    rw [show 8 + (k - 8) = k by omega]
    exact BitVec.getLsbD_eq_getElem hk

/-- Half as many words as bytes. -/
theorem imageWords_length (b : List Byte) : (imageWords b).length = b.length / 2 := by
  induction b using imageWords.induct with
  | case1 hi lo rest ih => simp [imageWords, ih]; omega
  | case2 b h =>
    match b, h with
    | [], _ => rfl
    | [x], _ => simp [imageWords]
    | x :: y :: r, h => exact absurd rfl (h x y r)

/-- Placed words read back, and every other cell reads as before. -/
theorem read_placeWords (ws : List Word) (m : Memory) (k a : Nat) :
    (placeWords m k ws).read a =
      if k ≤ a ∧ a < k + ws.length then ws.getD (a - k) 0 else m.read a := by
  induction ws generalizing m k with
  | nil => simp [placeWords]
  | cons w ws ih =>
    rw [placeWords, ih, Memory.read_write]
    by_cases h : a = k
    · subst h; simp
    · by_cases h2 : k ≤ a ∧ a < k + (ws.length + 1)
      · have e : a - k = (a - (k + 1)) + 1 := by omega
        rw [if_pos (by omega), if_pos (by simpa using h2), e]
        simp
      · rw [if_neg (by omega), if_neg h, if_neg (by simpa using h2)]

/-- Placing words below 65536 keeps the canonical form. -/
theorem wf_placeWords (ws : List Word) (m : Memory) (k : Nat) (h : m.wf = true)
    (hk : k + ws.length ≤ 65536) : (placeWords m k ws).wf = true := by
  induction ws generalizing m k with
  | nil => exact h
  | cons w ws ih =>
    simp at hk
    exact ih _ _ (Memory.wf_write m k w h (by omega)) (by omega)

/-- A loaded image is an origin and words that fit. -/
theorem loadImage_ok {b : List Byte} {m m1 : Memory} (h : loadImage b m = .ok m1) :
    ∃ origin data, imageWords b = origin :: data ∧ origin.toNat + data.length ≤ 65536 ∧
      m1 = placeWords m origin.toNat data := by
  unfold loadImage at h
  split at h
  · split at h <;> cases h
  · split at h
    · cases h
    · rename_i origin data e
      split at h
      · cases h; exact ⟨origin, data, e, by assumption, rfl⟩
      · cases h

/-- Loading keeps the canonical form. -/
theorem wf_loadImages {images : List (Option (List Byte))} {m m1 : Memory} (h : m.wf = true)
    (e : loadImages images m = .ok m1) : m1.wf = true := by
  induction images generalizing m with
  | nil => cases e; exact h
  | cons i images ih =>
    cases i with
    | none => cases e
    | some b =>
      rw [loadImages] at e
      cases hb : loadImage b m with
      | ok m2 =>
        rw [hb] at e
        obtain ⟨origin, data, -, fits, rfl⟩ := loadImage_ok hb
        exact ih (wf_placeWords _ _ _ h fits) e
      | error x => rw [hb] at e; cases e

/-- A started machine is the reset machine with the loaded memory (R210). -/
theorem boot_ok {gpr : Vector Word 8} {input : List Byte} {images : List (Option (List Byte))}
    {s : State} (e : boot gpr input images = .ok s) :
    ∃ m, loadImages images [] = .ok m ∧ s = { State.resetWith gpr input with mem := m } := by
  unfold boot at e
  cases h : loadImages images [] with
  | ok m => rw [h] at e; cases e; exact ⟨m, rfl, rfl⟩
  | error x => rw [h] at e; cases e

end Sys2Proof.Machine
end

