-- ==== Sys2Proof/Laws/PerInstr.lean ====
section
/-! SUPPORT. Statements made once per instruction: what an instruction is as syntax. -/

namespace Sys2Proof.Laws.EncodeOpcode

/-- Bits 15 to 12 of an instruction's word are its opcode's value (30_encoding.md R71): no
operand reaches them. -/
def Statement (i : Instr) : Prop := (encode i).extractLsb' 12 4 = opcodeValue i.opcode

/-- Operand bits below bit 12 leave the opcode field alone. -/
theorem of_operandBits {i : Instr} (h : ∀ k, k < 4 → i.operandBits.getLsbD (12 + k) = false) :
    Statement i := by
  unfold Statement
  ext k hk
  rw [BitVec.getElem_extractLsb', encode, BitVec.getLsbD_or, h k hk, getLsbD_place]
  simp [hk, show 12 + k < 16 by omega]

theorem br (nzp : BitVec 3) (off : BitVec 9) : Statement (.br nzp off) :=
  of_operandBits (by intro k hk; interval_cases k <;> simp [Instr.operandBits])

theorem addReg (dr sr1 sr2 : RegIdx) : Statement (.addReg dr sr1 sr2) :=
  of_operandBits (by intro k hk; interval_cases k <;> simp [Instr.operandBits])

theorem addImm (dr sr1 : RegIdx) (imm : BitVec 5) : Statement (.addImm dr sr1 imm) :=
  of_operandBits (by intro k hk; interval_cases k <;> simp [Instr.operandBits])

theorem ld (dr : RegIdx) (off : BitVec 9) : Statement (.ld dr off) :=
  of_operandBits (by intro k hk; interval_cases k <;> simp [Instr.operandBits])

theorem st (sr : RegIdx) (off : BitVec 9) : Statement (.st sr off) :=
  of_operandBits (by intro k hk; interval_cases k <;> simp [Instr.operandBits])

theorem jsrr (base : RegIdx) : Statement (.jsrr base) :=
  of_operandBits (by intro k hk; interval_cases k <;> simp [Instr.operandBits])

theorem jsr (off : BitVec 11) : Statement (.jsr off) :=
  of_operandBits (by intro k hk; interval_cases k <;> simp [Instr.operandBits])

theorem andReg (dr sr1 sr2 : RegIdx) : Statement (.andReg dr sr1 sr2) :=
  of_operandBits (by intro k hk; interval_cases k <;> simp [Instr.operandBits])

theorem andImm (dr sr1 : RegIdx) (imm : BitVec 5) : Statement (.andImm dr sr1 imm) :=
  of_operandBits (by intro k hk; interval_cases k <;> simp [Instr.operandBits])

theorem ldr (dr base : RegIdx) (off : BitVec 6) : Statement (.ldr dr base off) :=
  of_operandBits (by intro k hk; interval_cases k <;> simp [Instr.operandBits])

theorem str (sr base : RegIdx) (off : BitVec 6) : Statement (.str sr base off) :=
  of_operandBits (by intro k hk; interval_cases k <;> simp [Instr.operandBits])

theorem rti : Statement .rti :=
  of_operandBits (by intro k hk; interval_cases k <;> simp [Instr.operandBits])

theorem not (dr sr : RegIdx) : Statement (.not dr sr) :=
  of_operandBits (by intro k hk; interval_cases k <;> simp [Instr.operandBits])

theorem ldi (dr : RegIdx) (off : BitVec 9) : Statement (.ldi dr off) :=
  of_operandBits (by intro k hk; interval_cases k <;> simp [Instr.operandBits])

theorem sti (sr : RegIdx) (off : BitVec 9) : Statement (.sti sr off) :=
  of_operandBits (by intro k hk; interval_cases k <;> simp [Instr.operandBits])

theorem jmp (base : RegIdx) : Statement (.jmp base) :=
  of_operandBits (by intro k hk; interval_cases k <;> simp [Instr.operandBits])

theorem res : Statement .res :=
  of_operandBits (by intro k hk; interval_cases k <;> simp [Instr.operandBits])

theorem lea (dr : RegIdx) (off : BitVec 9) : Statement (.lea dr off) :=
  of_operandBits (by intro k hk; interval_cases k <;> simp [Instr.operandBits])

theorem trap (v : BitVec 8) : Statement (.trap v) :=
  of_operandBits (by intro k hk; interval_cases k <;> simp [Instr.operandBits])

theorem getc : Statement .getc :=
  of_operandBits (by intro k hk; interval_cases k <;> simp [Instr.operandBits])

theorem out : Statement .out :=
  of_operandBits (by intro k hk; interval_cases k <;> simp [Instr.operandBits])

theorem puts : Statement .puts :=
  of_operandBits (by intro k hk; interval_cases k <;> simp [Instr.operandBits])

theorem inp : Statement .inp :=
  of_operandBits (by intro k hk; interval_cases k <;> simp [Instr.operandBits])

theorem putsp : Statement .putsp :=
  of_operandBits (by intro k hk; interval_cases k <;> simp [Instr.operandBits])

theorem halt : Statement .halt :=
  of_operandBits (by intro k hk; interval_cases k <;> simp [Instr.operandBits])

theorem ret : Statement .ret :=
  of_operandBits (by intro k hk; interval_cases k <;> simp [Instr.operandBits])

end Sys2Proof.Laws.EncodeOpcode
end

