-- ==== Sys2Proof/Tests/Slice0.lean ====
section
/-! SUPPORT. The model's own tests. Expected values are those of 95_test_vectors.md, whose row
each test names, or are worked out from the rule it names. -/

namespace Sys2Proof.Tests

open Sys2Proof.Machine

/-! ### WellFormed: each check refuses an ill-formed term -/

theorem test_wf_refuses_trap_of_getc : (Instr.trap 0x20#8).wellFormed = false := by decide
theorem test_wf_refuses_trap_of_halt : (Instr.trap 0x25#8).wellFormed = false := by decide
theorem test_wf_accepts_trap_below : (Instr.trap 0x1F#8).wellFormed = true := by decide
theorem test_wf_accepts_trap_above : (Instr.trap 0x26#8).wellFormed = true := by decide
theorem test_wf_refuses_jmp_r7 : (Instr.jmp 7#3).wellFormed = false := by decide
theorem test_wf_accepts_jmp_r6 : (Instr.jmp 6#3).wellFormed = true := by decide
theorem test_wf_accepts_add : (Instr.addReg 7#3 0#3 7#3).wellFormed = true := by decide

/-! ### Decode: words of 95_test_vectors.md, or written out from the patterns of 30_encoding.md -/

theorem test_decode_br : decode 0x03FD#16 = .br 0b001#3 0x1FD#9 := by decide
theorem test_decode_addReg : decode 0x1883#16 = .addReg 4#3 2#3 3#3 := by decide
theorem test_decode_addImm : decode 0x12BD#16 = .addImm 1#3 2#3 0b11101#5 := by decide
theorem test_decode_ld : decode 0x2007#16 = .ld 0#3 7#9 := by decide
theorem test_decode_st : decode 0x3006#16 = .st 0#3 6#9 := by decide
theorem test_decode_jsrr : decode 0x4080#16 = .jsrr 2#3 := by decide
theorem test_decode_jsr : decode 0x4C00#16 = .jsr 0x400#11 := by decide
theorem test_decode_andReg : decode 0x5042#16 = .andReg 0#3 1#3 2#3 := by decide
theorem test_decode_andImm : decode 0x5070#16 = .andImm 0#3 1#3 0b10000#5 := by decide
theorem test_decode_ldr : decode 0x6440#16 = .ldr 2#3 1#3 0#6 := by decide
theorem test_decode_str : decode 0x7842#16 = .str 4#3 1#3 2#6 := by decide
theorem test_decode_rti : decode 0x8FFF#16 = .rti := by decide
theorem test_decode_not : decode 0x9D7F#16 = .not 6#3 5#3 := by decide
theorem test_decode_ldi : decode 0xAA05#16 = .ldi 5#3 5#9 := by decide
theorem test_decode_sti : decode 0xB006#16 = .sti 0#3 6#9 := by decide
theorem test_decode_jmp : decode 0xC0C0#16 = .jmp 3#3 := by decide
theorem test_decode_res : decode 0xD000#16 = .res := by decide
theorem test_decode_lea : decode 0xE207#16 = .lea 1#3 7#9 := by decide
theorem test_decode_trap : decode 0xF026#16 = .trap 0x26#8 := by decide
theorem test_decode_getc : decode 0xF020#16 = .getc := by decide
theorem test_decode_out : decode 0xF021#16 = .out := by decide
theorem test_decode_puts : decode 0xF022#16 = .puts := by decide
theorem test_decode_inp : decode 0xF023#16 = .inp := by decide
theorem test_decode_putsp : decode 0xF024#16 = .putsp := by decide
theorem test_decode_halt : decode 0xFF25#16 = .halt := by decide
theorem test_decode_ret : decode 0xCFFF#16 = .ret := by decide

/-- The encoder, on words of 95_test_vectors.md (L2.1 row 1, L2.1 row 13, L2.6 row 9, P2). -/
theorem test_encode :
    encode (.addImm 1#3 2#3 0b11101#5) = 0x12BD#16 ∧ encode (.not 0#3 1#3) = 0x907F#16 ∧
      encode (.str 4#3 1#3 2#6) = 0x7842#16 ∧ encode .halt = 0xF025#16 ∧
      encode .ret = 0xC1C0#16 := by decide

theorem test_decodeTableWord :
    decodeTableWord 16 0x12BD = some (.addImm 1#3 2#3 0b11101#5) := by decide

/-! ### One step of each instruction -/

/-- The reset machine about to fetch the word `w` at address `a`. -/
def machineAt (a w : Word) : State := { State.reset.memWrite a w with pc := a }

/-- What a projection of the state is after one step. -/
def after {α : Type} (f : State → α) (s : State) : Option α :=
  match step s with
  | .next t => some (f t)
  | .fault _ => none
  | .refused _ => none

/-- L2.2 row 3, row 9 and row 11. -/
theorem test_br_taken : after State.pc (machineAt 0x3000#16 0x0405#16) = some 0x3006#16 := by
  decide
theorem test_br_back :
    after State.pc { machineAt 0x0000#16 0x0FFE#16 with cond := .pos } = some 0xFFFF#16 := by
  decide

/-- L2.1 row 8 and row 7. -/
theorem test_addReg_all_one_register :
    after (fun t => (t.reg 3#3, t.cond)) ((machineAt 0x3000#16 0x16C3#16).setReg 3#3 0x4000#16)
      = some (0x8000#16, .neg) := by decide
theorem test_addReg_ignored_bits :
    after (fun t => (t.reg 0#3, t.cond))
      (((machineAt 0x3000#16 0x1009#16).setReg 0#3 3#16).setReg 1#3 4#16)
      = some (0x0007#16, .pos) := by decide

/-- L1-3 and L2.1 row 3. -/
theorem test_addImm_negative :
    after (fun t => (t.reg 1#3, t.cond, t.pc)) ((machineAt 0x3000#16 0x12BD#16).setReg 2#3 5#16)
      = some (0x0002#16, .pos, 0x3001#16) := by decide
theorem test_addImm_wraps :
    after (fun t => (t.reg 1#3, t.cond)) ((machineAt 0x3000#16 0x1261#16).setReg 1#3 0xFFFF#16)
      = some (0x0000#16, .zero) := by decide

/-- L2.1 row 10. -/
theorem test_andReg :
    after (fun t => (t.reg 0#3, t.cond))
      (((machineAt 0x3000#16 0x5042#16).setReg 1#3 0x00FF#16).setReg 2#3 0x0F0F#16)
      = some (0x000F#16, .pos) := by decide

/-- L2.1 row 11. -/
theorem test_andImm_extends :
    after (fun t => (t.reg 0#3, t.cond)) ((machineAt 0x3000#16 0x507F#16).setReg 1#3 0x8001#16)
      = some (0x8001#16, .neg) := by decide

/-- L2.1 row 15. -/
theorem test_not :
    after (fun t => (t.reg 0#3, t.cond)) ((machineAt 0x3000#16 0x907F#16).setReg 1#3 0x8000#16)
      = some (0x7FFF#16, .pos) := by decide

/-- L2.3 rows 1 and 2. -/
theorem test_jmp :
    after State.pc ((machineAt 0x3000#16 0xC0C0#16).setReg 3#3 0x4000#16) = some 0x4000#16 := by
  decide
theorem test_ret :
    after State.pc ((machineAt 0x3000#16 0xC1C0#16).setReg 7#3 0x3456#16) = some 0x3456#16 := by
  decide

/-- L2.4 row 3. -/
theorem test_jsr_back :
    after (fun t => (t.reg 7#3, t.pc)) (machineAt 0x3000#16 0x4C00#16)
      = some (0x3001#16, 0x2C01#16) := by decide

/-- L2.4 rows 7 and 6. -/
theorem test_jsrr :
    after (fun t => (t.reg 7#3, t.pc, t.cond))
      { (machineAt 0x3000#16 0x4080#16).setReg 2#3 0x4000#16 with cond := .neg }
      = some (0x3001#16, 0x4000#16, .neg) := by decide
theorem test_jsrr_r7 :
    after (fun t => (t.reg 7#3, t.pc)) ((machineAt 0x3000#16 0x41C0#16).setReg 7#3 0x5000#16)
      = some (0x3001#16, 0x3001#16) := by decide

/-- L2.5 rows 4 and 5. -/
theorem test_ld_wraps :
    after (fun t => (t.reg 0#3, t.cond)) ((machineAt 0x0000#16 0x21FE#16).memWrite 0xFFFF#16 0x1111#16)
      = some (0x1111#16, .pos) := by decide
theorem test_ld_polls :
    after (fun t => (t.reg 0#3, t.cond, t.kbsr, t.kbdr, t.input))
      { machineAt 0xFDFF#16 0x2000#16 with input := [0x6B#8] }
      = some (0x8000#16, .neg, 0x8000#16, 0x006B#16, []) := by decide

/-- L1-4 and L2.5 row 10. -/
theorem test_ldi :
    after (fun t => (t.reg 0#3, t.cond))
      (((machineAt 0x3000#16 0xA003#16).memWrite 0x3004#16 0x3010#16).memWrite 0x3010#16 0x002A#16)
      = some (0x002A#16, .pos) := by decide
theorem test_ldi_polls_without_key :
    after (fun t => (t.reg 0#3, t.cond, t.kbsr))
      (((machineAt 0x3000#16 0xA003#16).memWrite 0x3004#16 0xFE00#16).setReg 0#3 0x1111#16)
      = some (0x0000#16, .zero, 0x0000#16) := by decide

/-- L2.5 rows 13 and 14. -/
theorem test_ldr_same_register :
    after (fun t => (t.reg 1#3, t.cond))
      (((machineAt 0x3000#16 0x625F#16).setReg 1#3 0x4000#16).memWrite 0x401F#16 0xBEEF#16)
      = some (0xBEEF#16, .neg) := by decide
theorem test_ldr_negative :
    after (fun t => (t.reg 1#3, t.cond))
      (((machineAt 0x3000#16 0x6260#16).setReg 1#3 0x4000#16).memWrite 0x3FE0#16 0x0001#16)
      = some (0x0001#16, .pos) := by decide

/-- L2.5 row 19: the fetch at 0xFFFF wraps. -/
theorem test_lea_wraps :
    after (fun t => (t.reg 0#3, t.cond, t.pc)) ((machineAt 0xFFFF#16 0xE000#16).setReg 0#3 0x1111#16)
      = some (0x0000#16, .zero, 0x0000#16) := by decide

/-- L2.6 rows 3 and 4. -/
theorem test_st :
    after (fun t => t.stored 0x3001#16) ((machineAt 0x3000#16 0x3000#16).setReg 0#3 0xF025#16)
      = some 0xF025#16 := by decide
theorem test_st_does_not_poll :
    after (fun t => (t.kbsr, t.input))
      { (machineAt 0xFDFF#16 0x3000#16).setReg 0#3 0x1234#16 with input := [0x6B#8] }
      = some (0x1234#16, [0x6B#8]) := by decide

/-- L2.6 rows 5 and 8. -/
theorem test_sti :
    after (fun t => (t.stored 0x4000#16, t.stored 0x300A#16))
      (((machineAt 0x3003#16 0xB006#16).setReg 0#3 0x002A#16).memWrite 0x300A#16 0x4000#16)
      = some (0x002A#16, 0x4000#16) := by decide
theorem test_sti_pointer_polls :
    after (fun t => (t.stored 0x8000#16, t.kbsr, t.kbdr))
      { (machineAt 0xFDFF#16 0xB000#16).setReg 0#3 0x1234#16 with input := [0x6B#8] }
      = some (0x1234#16, 0x8000#16, 0x006B#16) := by decide

/-- L2.6 row 11. -/
theorem test_str_wraps :
    after (fun t => t.stored 0xFFF0#16)
      (((machineAt 0x3000#16 0x7060#16).setReg 0#3 0x0007#16).setReg 1#3 0x0010#16)
      = some 0x0007#16 := by decide

/-- L2.9. -/
theorem test_rti :
    after id { (machineAt 0x3000#16 0x8000#16).setReg 7#3 0x1234#16 with cond := .neg }
      = some { (machineAt 0x3000#16 0x8000#16).setReg 7#3 0x1234#16 with
          cond := .neg, pc := 0x3001#16 } := by decide
theorem test_res :
    after id { (machineAt 0x3000#16 0xDFFF#16).setReg 7#3 0x1234#16 with cond := .neg }
      = some { (machineAt 0x3000#16 0xDFFF#16).setReg 7#3 0x1234#16 with
          cond := .neg, pc := 0x3001#16 } := by decide

/-- L2.8 rows 19 and 20. -/
theorem test_trap_unknown :
    after id { machineAt 0x3000#16 0xF026#16 with cond := .neg }
      = some { (machineAt 0x3000#16 0xF026#16).setReg 7#3 0x3001#16 with
          cond := .neg, pc := 0x3001#16 } := by decide

/-- L2.8 rows 3 and 4. -/
theorem test_getc :
    after (fun t => (t.reg 0#3, t.cond, t.reg 7#3, t.input, t.output))
      { machineAt 0x3000#16 0xF020#16 with input := [0xE9#8] }
      = some (0x00E9#16, .pos, 0x3001#16, [], []) := by decide
theorem test_getc_waits :
    after (fun t => (t.reg 7#3, t.pc, t.awaitInput)) (machineAt 0x3000#16 0xF020#16)
      = some (0x3001#16, 0x3001#16, .getc) := by decide

/-- L2.8 row 5. -/
theorem test_out :
    after (fun t => (t.output, t.reg 0#3, t.cond)) ((machineAt 0x3000#16 0xF021#16).setReg 0#3 0x1241#16)
      = some ([0x41#8], 0x1241#16, .zero) := by decide

/-- The machine at 0x3000 with R0 = 0x4000 and three words from 0x4000 on. -/
def stringMachine (w a b c : Word) : State :=
  ((((machineAt 0x3000#16 w).setReg 0#3 0x4000#16).memWrite 0x4000#16 a).memWrite 0x4001#16
    b).memWrite 0x4002#16 c

/-- L2.8 rows 6 and 7. -/
theorem test_puts :
    after (fun t => (t.output, t.reg 0#3, t.reg 7#3)) (stringMachine 0xF022#16 0x48#16 0x69#16 0#16)
      = some ([0x48#8, 0x69#8], 0x4000#16, 0x3001#16) := by decide
theorem test_puts_low_byte :
    after State.output (stringMachine 0xF022#16 0x4142#16 0#16 0x43#16) = some [0x42#8] := by
  decide

/-- L2.8 row 13, but for the output: see `witness_in`. -/
theorem test_in :
    after (fun t => (t.reg 0#3, t.cond, t.reg 7#3, t.input))
      { machineAt 0x3000#16 0xF023#16 with input := [0x78#8] }
      = some (0x0078#16, .pos, 0x3001#16, []) := by decide

/-- L2.8 row 14. -/
theorem test_in_waits :
    after (fun t => (t.reg 7#3, t.awaitInput)) (machineAt 0x3000#16 0xF023#16)
      = some (0x3001#16, .inp) := by decide

/-- L2.8 rows 15 and 16. -/
theorem test_putsp :
    after State.output (stringMachine 0xF024#16 0x6548#16 0x006C#16 0#16)
      = some [0x48#8, 0x65#8, 0x6C#8] := by decide
theorem test_putsp_stopping_word :
    after State.output (stringMachine 0xF024#16 0x4100#16 0x0042#16 0#16) = some [] := by decide

/-- L2.8 rows 17 and 18. -/
theorem test_halt :
    after (fun t => (t.running, t.reg 7#3, t.pc)) (machineAt 0x3000#16 0xFF25#16)
      = some (false, 0x3001#16, 0x3001#16) := by decide

/-! ### Fetch, images and the host's two functions -/

/-- L2.7 rows 8 and 9. -/
theorem test_fetch_polls :
    after (fun t => (t.kbsr, t.kbdr, t.pc)) { State.reset with pc := 0xFE00#16, input := [0x7A#8] }
      = some (0x8000#16, 0x007A#16, 0xFE01#16) := by decide
theorem test_fetch_polls_without_key :
    after (fun t => (t.kbsr, t.pc)) ((machineAt 0xFE00#16 0xF025#16))
      = some (0x0000#16, 0xFE01#16) := by decide

/-- L2.10 rows 1, 4, 5, 6 and 7. -/
theorem test_image_loads :
    loadImages [some [0x30#8, 0x00#8, 0x11#8, 0x11#8, 0x22#8, 0x22#8],
      some [0x30#8, 0x01#8, 0x33#8, 0x33#8]] []
      = .ok [(0x3000, 0x1111#16), (0x3001, 0x3333#16)] := rfl
theorem test_image_too_long :
    loadImage [0xFF#8, 0xFF#8, 0x12#8, 0x34#8, 0x56#8, 0x78#8] [] = .error .tooLong := rfl
theorem test_image_odd : loadImage [0x30#8, 0x00#8, 0x12#8] [] = .error .oddLength := rfl
theorem test_image_empty : loadImage [] [] = .error .noOrigin := rfl

/-- L2.10 row 5 among several: no run starts, whichever image fails (R216). -/
theorem test_boot_fails :
    boot Config.gprReset [] [some [0x30#8, 0x00#8, 0x12#8], some [0x30#8, 0x00#8]]
      = .error .oddLength := rfl
theorem test_boot_places_the_image :
    (match boot Config.gprReset [] [some [0x30#8, 0x00#8, 0x12#8, 0x34#8]] with
      | .ok s => some (s.stored 0x3000#16)
      | .error _ => none) = some 0x1234#16 := rfl

/-- The host's characters are taken in the order supplied (20_memory.md R53). -/
theorem test_hostAppend_order :
    after (fun t => (t.reg 0#3, t.input))
      ({ machineAt 0x3000#16 0xF020#16 with input := [0x61#8] }.hostAppend [0x62#8])
      = some (0x0061#16, [0x62#8]) := by decide

/-- The placed word runs, also where `pc` is KBSR's address. -/
theorem test_withFetchWord :
    after (fun t => (t.reg 0#3, t.pc)) (State.reset.withFetchWord 16 0x1021)
      = some (0x0001#16, 0x3001#16) := by decide
theorem test_withFetchWord_at_kbsr :
    after (fun t => (t.reg 0#3, t.pc)) (({ State.reset with pc := 0xFE00#16 } : State).withFetchWord 16 0x1021)
      = some (0x0001#16, 0x3001#16) := by decide

/-! ### Witnesses: states and operands that meet the hypotheses of the statements -/

/-- O1 (a well-formed instruction), O3 (two words that differ in ignored bits). -/
theorem witness_encoding :
    (Instr.addReg 0#3 0#3 1#3).wellFormed = true ∧
      (0x1001#16 ^^^ 0x1009#16) &&& ~~~ignoredBits (decode 0x1001#16) = 0x0000#16 ∧
      (0x8000#16 ^^^ 0x8FFF#16) &&& ~~~ignoredBits (decode 0x8000#16) = 0x0000#16 := by decide

/-- The decoding clauses of the instruction statements: each opcode, and both values of a mode
bit. -/
theorem witness_opcodes :
    opcodeOf (0x0000#16 |>.extractLsb' 12 4) = .br ∧ opcodeOf (0x1020#16 |>.extractLsb' 12 4) = .add ∧
    opcodeOf (0x2000#16 |>.extractLsb' 12 4) = .ld ∧ opcodeOf (0x3000#16 |>.extractLsb' 12 4) = .st ∧
    opcodeOf (0x4800#16 |>.extractLsb' 12 4) = .jsr ∧ opcodeOf (0x5000#16 |>.extractLsb' 12 4) = .and ∧
    opcodeOf (0x6000#16 |>.extractLsb' 12 4) = .ldr ∧ opcodeOf (0x7000#16 |>.extractLsb' 12 4) = .str ∧
    opcodeOf (0x8000#16 |>.extractLsb' 12 4) = .rti ∧ opcodeOf (0x9000#16 |>.extractLsb' 12 4) = .not ∧
    opcodeOf (0xA000#16 |>.extractLsb' 12 4) = .ldi ∧ opcodeOf (0xB000#16 |>.extractLsb' 12 4) = .sti ∧
    opcodeOf (0xC000#16 |>.extractLsb' 12 4) = .jmp ∧ opcodeOf (0xD000#16 |>.extractLsb' 12 4) = .res ∧
    opcodeOf (0xE000#16 |>.extractLsb' 12 4) = .lea ∧ opcodeOf (0xFFFF#16 |>.extractLsb' 12 4) = .trap ∧
    (0x4800#16).getLsbD 11 = true ∧
    opcodeOf (0x4000#16 |>.extractLsb' 12 4) = .jsr ∧ (0x4000#16).getLsbD 11 = false := by decide

/-- Addresses on each side of 0xFE00, an empty `input` and one with a key. -/
theorem witness_reads :
    (0xFDFF#16 : Word) ≠ 0xFE00#16 ∧ (0xFE01#16 : Word) ≠ 0xFE00#16 ∧
      State.reset.input = [] ∧ (State.resetWith Config.gprReset [0x6B#8]).input = 0x6B#8 :: [] := by
  decide

/-- The reads of LD, LDI, LDR and STI: an ordinary cell, and KBSR with a key. -/
theorem witness_load_reads :
    State.reset.memRead (State.reset.pc + (1#9).signExtend 16) = (0x0000#16, State.reset) ∧
      ((State.resetWith Config.gprReset [0x6B#8]).memRead 0xFE00#16).1 = 0x8000#16 := by decide

/-- Vectors that select no service, at the ends of both ranges. -/
theorem witness_unknown_vectors :
    (0x00#8 < 0x20#8 ∨ 0x25#8 < 0x00#8) ∧ (0x1F#8 < 0x20#8 ∨ 0x25#8 < 0x1F#8) ∧
      (0x26#8 < 0x20#8 ∨ 0x25#8 < 0x26#8) ∧ (0xFF#8 < 0x20#8 ∨ 0x25#8 < 0xFF#8) := by decide

/-- L2.8 row 13, with its output. -/
theorem witness_in :
    ∃ t, exec .inp { State.reset with pc := 0x3001#16, input := [0x78#8] } = .next t ∧
      t.output = Config.inPrompt ++ [0x78#8] := ⟨_, rfl, rfl⟩

/-- A running machine about to fetch GETC, or IN, with no input: it waits. -/
theorem witness_wait :
    let s := machineAt 0x3000#16 0xF020#16
    let r := machineAt 0x3000#16 0xF023#16
    s.running = true ∧ s.awaitInput = .none ∧ s.input = [] ∧ decode s.fetch.1 = .getc ∧
      r.running = true ∧ r.awaitInput = .none ∧ r.input = [] ∧ decode r.fetch.1 = .inp := by
  decide

/-- The premises of the statement on PUTS: the string "Hi" at 0x4000. -/
theorem witness_puts :
    let s := stringMachine 0xF022#16 0x48#16 0x69#16 0#16
    let ws : List Word := [0x48#16, 0x69#16]
    ws.length < 65536 ∧ (∀ w ∈ ws, w ≠ 0x0000#16) ∧
      (∀ (k : Nat) (w : Word), ws[k]? = some w → s.stored (s.reg 0#3 + BitVec.ofNat 16 k) = w) ∧
      s.stored (s.reg 0#3 + BitVec.ofNat 16 ws.length) = 0x0000#16 ∧
      (∀ k : Nat, k ≤ ws.length → s.reg 0#3 + BitVec.ofNat 16 k ≠ 0xFE00#16) := by
  refine ⟨by decide, by simp, fun k w h => ?_, by decide, fun k h => ?_⟩
  · match k, h with
    | 0, h => cases h; decide
    | 1, h => cases h; decide
  · match k, h with
    | 0, _ => decide
    | 1, _ => decide
    | 2, _ => decide

/-- The premises of the statement on PUTSP: the packed string "He", then a zero byte. The empty
string is the case `ws = []`. -/
theorem witness_putsp :
    let s := stringMachine 0xF024#16 0x6548#16 0x4100#16 0#16
    let ws : List Word := [0x6548#16]
    ws.length < 65536 ∧ (∀ w ∈ ws, w.extractLsb' 0 8 ≠ 0#8) ∧
      (∀ (k : Nat) (w : Word), ws[k]? = some w → s.stored (s.reg 0#3 + BitVec.ofNat 16 k) = w) ∧
      (s.stored (s.reg 0#3 + BitVec.ofNat 16 ws.length)).extractLsb' 0 8 = 0#8 ∧
      (∀ k : Nat, k ≤ ws.length → s.reg 0#3 + BitVec.ofNat 16 k ≠ 0xFE00#16) := by
  refine ⟨by decide, by simp, fun k w h => ?_, by decide, fun k h => ?_⟩
  · match k, h with
    | 0, h => cases h; decide
  · match k, h with
    | 0, _ => decide
    | 1, _ => decide

/-- Memory that holds a terminator of each service. -/
theorem witness_terminator :
    (∃ a, State.reset.stored a = 0x0000#16) ∧
      ∃ a, (State.reset.stored a).extractLsb' 0 8 = 0#8 :=
  ⟨⟨0x0000#16, rfl⟩, ⟨0x0000#16, rfl⟩⟩

/-- The whole-machine rules: instructions that complete, a register they do not write, a cell
they neither store to nor poll, and the two conditions on `awaitInput`. -/
theorem witness_frames :
    (∃ t, exec (.addImm 1#3 2#3 0b11101#5) State.reset = .next t ∧ 0#3 ∉ regsWritten (.addImm 1#3 2#3 0b11101#5) ∧
      flagRegister (.addImm 1#3 2#3 0b11101#5) = some 1#3 ∧ t.awaitInput = .none) ∧
    (∃ t, exec .getc State.reset = .next t ∧ 1#3 ∉ regsWritten .getc ∧
      flagRegister .getc = some 0#3 ∧ State.reset.awaitInput = .none ∧ t.awaitInput ≠ .none) ∧
    (∃ t, exec (.st 0#3 6#9) State.reset = .next t ∧ storeAddress (.st 0#3 6#9) State.reset ≠ some 0x3007#16 ∧
      ¬mayPoll (.st 0#3 6#9) State.reset ∧ flagRegister (.st 0#3 6#9) = none) ∧
    (∃ t, exec .halt State.reset = .next t ∧ trapVector .halt ∉ [some 0x20#8, some 0x23#8]) ∧
    (∃ t, exec .rti State.reset = .next t ∧
      trapVector .rti ∉ [some 0x21#8, some 0x22#8, some 0x23#8, some 0x24#8, some 0x25#8]) := by
  refine ⟨⟨_, rfl, by decide, by decide, rfl⟩, ⟨_, rfl, by decide, by decide, rfl, by decide⟩,
    ⟨_, rfl, by decide, ?_, by decide⟩, ⟨_, rfl, by decide⟩, ⟨_, rfl, by decide⟩⟩
  exact fun h => absurd h.1 (by decide)

/-- An instruction that polls: LD of KBSR, and the cells its frame then excludes. -/
theorem witness_poll :
    let s := { State.reset with pc := 0xFDFF#16, input := [0x6B#8] }
    (∃ t, exec (.ld 0#3 1#9) s = .next t) ∧ mayPoll (.ld 0#3 1#9) s ∧
      storeAddress (.ld 0#3 1#9) s = none ∧ (0xFE01#16 : Word) ≠ 0xFE00#16 ∧
      (0xFE01#16 : Word) ≠ 0xFE02#16 := by
  refine ⟨⟨_, rfl⟩, ?_, by decide, by decide, by decide⟩
  show State.pcRel9 _ _ = kbsrAddr
  decide

/-- A running machine that does not wait, away from KBSR and at it; one that halted. -/
theorem witness_step :
    (State.reset.running = true ∧ State.reset.awaitInput = .none ∧ State.reset.pc ≠ 0xFE00#16) ∧
    ((machineAt 0xFE00#16 0#16).running = true ∧ (machineAt 0xFE00#16 0#16).awaitInput = .none ∧
      (machineAt 0xFE00#16 0#16).pc = 0xFE00#16) ∧
    ∃ t, step (machineAt 0x3000#16 0xF025#16) = .next t ∧ t.running = false :=
  ⟨by decide, by decide, ⟨_, rfl, rfl⟩⟩

/-- A machine that waits meets the invariant, as the reset machine does. -/
theorem witness_inv :
    State.Inv { (State.reset.setReg 7#3 0x3001#16) with pc := 0x3001#16, awaitInput := .getc } :=
  ⟨by decide, fun _ => by decide⟩

/-- A loaded machine, and a state it reaches: a host's append, then the step of a GETC. -/
theorem witness_run :
    ∃ s t, boot Config.gprReset [] [some [0x30#8, 0x00#8, 0xF0#8, 0x20#8]] = .ok s ∧ Reaches s t ∧
      t.reg 0#3 = 0x0061#16 :=
  ⟨_, _, rfl, .core (.host [0x61#8] (.refl _)) rfl, rfl⟩

/-- L2.6 rows 3, 6 and 10: a ST whose cell is the next one fetched, a STI with what its pointer
read gives, and a STR. -/
theorem witness_next_fetch :
    let s := machineAt 0x3000#16 0x3000#16
    let i := (machineAt 0x3000#16 0xB003#16).memWrite 0x3004#16 0xFE00#16
    let r := machineAt 0x3000#16 0x7240#16
    (s.running = true ∧ s.awaitInput = .none ∧ s.pc ≠ 0xFE00#16 ∧ s.pc + 1#16 ≠ 0xFE00#16) ∧
      decode (s.stored s.pc) = .st 0#3 0#9 ∧ decode (i.stored i.pc) = .sti 0#3 3#9 ∧
      { i with pc := i.pc + 1#16 }.memRead (i.pc + 1#16 + (3#9).signExtend 16)
        = (0xFE00#16, { i with pc := i.pc + 1#16 }) ∧
      decode (r.stored r.pc) = .str 1#3 1#3 0#6 := by decide

/-- An image that ends at the last cell (L2.10 row 3), one file that cannot be read, one that
loads, and one that does not (L2.10 row 5). -/
theorem witness_images :
    (0xFFFF#16 : Word).toNat + [0x1234#16].length ≤ 65536 ∧
      (none : Option (List Byte)) ∈ [some [0x30#8, 0x00#8], none] ∧
      loadImage [0xFF#8, 0xFF#8, 0x12#8, 0x34#8] [] = .ok [(0xFFFF, 0x1234#16)] ∧
      loadImage [0x30#8, 0x00#8, 0x12#8] [] = .error .oddLength :=
  ⟨by decide, by decide, rfl, rfl⟩

end Sys2Proof.Tests
end

/-! ## Proofs: architectural state (10_state.md) -/

namespace Sys2Proof.Machine

/-- Settles O9 (R20), by the rule for a register read after a register write: the two indices
are compared as registers, whatever the registers held. -/
theorem registersReadBackWhatWasWritten : Obligations.RegistersReadBackWhatWasWritten := by
  intro s i j v
  exact State.reg_setReg s i j v

end Sys2Proof.Machine

/-! ## Proofs: memory (20_memory.md) -/

namespace Sys2Proof.Machine

/-- The frame of a memory write: with the memory put back, the state is the one before it. -/
theorem State.memWrite_restore_mem (s : State) (a v : Word) :
    { s.memWrite a v with mem := s.mem } = s := rfl

/-- Settles O10 (R45): the rule for a cell read after a memory write, which has no case for a
device address, and the write's frame. -/
theorem memoryWriteIsAPureStore : Obligations.MemoryWriteIsAPureStore := by
  intro s a b v
  exact ⟨State.stored_memWrite s a b v, State.memWrite_restore_mem s a v⟩

end Sys2Proof.Machine

/-! ## Proofs: instruction cycle (40_cycle.md) -/

namespace Sys2Proof.Machine

/-! ### Sign extension (R110) -/

/-- `sext` keeps the two's complement value of a field no wider than a word. -/
theorem toInt_sext {n : Nat} (f : BitVec n) (hn : n ≤ 16) : (sext f).toInt = f.toInt :=
  BitVec.toInt_signExtend_of_le hn

/-- The low `m + 1` bits of a word, as a two's complement field: bit `m` is the sign and takes
`2 ^ (m + 1)` from the unsigned value. -/
theorem toInt_setWidth_succ (x : Word) (m : Nat) :
    (x.setWidth (m + 1)).toInt =
      (x.toNat % 2 ^ (m + 1) : Nat) - (if x.getLsbD m then (2 ^ (m + 1) : Nat) else 0 : Int) := by
  have sign : (x.setWidth (m + 1)).msb = x.getLsbD m := by
    simp [BitVec.msb_eq_getLsbD_last]
  rw [BitVec.toInt_eq_msb_cond, sign, BitVec.toNat_setWidth]
  split
  · rfl
  · exact (Int.sub_zero _).symm

/-- Settles O6 (R110): extension keeps the field's value, and the field's value is read off its
unsigned value and its sign bit, at any width. -/
theorem signExtensionIsTwosComplement : Obligations.SignExtensionIsTwosComplement := by
  intro x
  have field (m : Nat) (hm : m + 1 ≤ 16) :=
    (toInt_sext (x.setWidth (m + 1)) hm).trans (toInt_setWidth_succ x m)
  exact ⟨field 4 (by decide), field 5 (by decide), field 8 (by decide), field 10 (by decide)⟩

/-! ### SetFlags (R106, R107) -/

/-- The condition of a value as R106 writes it, with bit 15 as the sign. -/
theorem condOf_eq (v : Word) :
    condOf v = if v = 0x0000#16 then .zero else if v.getLsbD 15 then .neg else .pos := by
  rw [condOf, BitVec.msb_eq_getLsbD_last]

theorem State.reg_setRegFlags_self (s : State) (dr : RegIdx) (v : Word) :
    (s.setRegFlags dr v).reg dr = v := s.reg_setReg_self dr v

/-- The flags of a result are those of the register it was written to. -/
theorem State.setRegFlags_eq_setFlags (s : State) (dr : RegIdx) (v : Word) :
    s.setRegFlags dr v = (s.setReg dr v).setFlags ((s.setRegFlags dr v).reg dr) := by
  rw [State.reg_setRegFlags_self]
  rfl

/-- `SetFlags` of the register just written finds the flags already set. -/
theorem State.setFlags_setRegFlags (s : State) (dr : RegIdx) (v : Word) :
    (s.setRegFlags dr v).setFlags ((s.setRegFlags dr v).reg dr) = s.setRegFlags dr v := by
  rw [State.reg_setRegFlags_self]
  rfl

/-- What a flag-setting instruction with flag register `r` may answer. -/
inductive SetsFlagsOrWaits (r : RegIdx) : Host.Outcome State Fault Refusal → Prop where
  /-- A state whose last change is a result written to `r` with its flags. -/
  | writes (u : State) (v : Word) : SetsFlagsOrWaits r (.next (u.setRegFlags r v))
  /-- A wait that has not reached its `SetFlags` yet. -/
  | waits {t : State} (h : t.awaitInput ≠ .none) : SetsFlagsOrWaits r (.next t)

/-- In a state that does not wait, `SetFlags` of the register written changes nothing more. -/
theorem SetsFlagsOrWaits.eq_setFlags {r : RegIdx} {t : State} (h : SetsFlagsOrWaits r (.next t))
    (hwait : t.awaitInput = .none) : t = t.setFlags (t.reg r) := by
  cases h with
  | writes u v => exact (u.setFlags_setRegFlags r v).symm
  | waits hwaits => exact absurd hwait hwaits

/-- GETC from its `ReadChar` on delivers a character as a result in R0, or waits (R162, R171). -/
theorem State.getcRead_setsFlagsOrWaits (s : State) :
    SetsFlagsOrWaits 0#3 (.next s.getcRead) := by
  obtain ⟨c, rest, -, e⟩ | ⟨-, e⟩ := s.getcRead_cases <;> rw [e]
  · exact SetsFlagsOrWaits.writes { s with input := rest, awaitInput := .none } (zext8 c)
  · exact .waits nofun

/-- IN from its `ReadChar` on delivers a character as a result in R0, or waits (R165, R171). -/
theorem State.inRead_setsFlagsOrWaits (s : State) :
    SetsFlagsOrWaits 0#3 (.next s.inRead) := by
  obtain ⟨c, rest, -, e⟩ | ⟨-, e⟩ := s.inRead_cases <;> rw [e]
  · exact SetsFlagsOrWaits.writes
      { s with input := rest, output := s.output ++ [c], awaitInput := .none } (zext8 c)
  · exact .waits nofun

/-- TRAP sets flags by its vector: those of GETC and IN set them on R0 (R107). -/
theorem flagRegister_trap (v : BitVec 8) :
    flagRegister (.trap v) = if v = 0x20#8 ∨ v = 0x23#8 then some 0#3 else none := by
  simp [flagRegister, trapVector]

/-- TRAP with a flag-setting vector is GETC or IN. -/
theorem exec_trap_setsFlagsOrWaits {v : BitVec 8} {r : RegIdx} (s : State)
    (h : flagRegister (.trap v) = some r) : SetsFlagsOrWaits r (exec (.trap v) s) := by
  rw [flagRegister_trap] at h
  split at h
  case isTrue hv =>
    obtain rfl : 0#3 = r := Option.some.inj h
    obtain rfl | rfl := hv
    · exact s.trapEntry.getcRead_setsFlagsOrWaits
    · exact (s.trapEntry.writeChars Config.inPrompt).inRead_setsFlagsOrWaits
  case isFalse => cases h

/-- Every instruction with a flag register writes it last, together with its flags, or waits. -/
theorem exec_setsFlagsOrWaits {i : Instr} {r : RegIdx} (s : State)
    (h : flagRegister i = some r) : SetsFlagsOrWaits r (exec i s) := by
  cases i
  case addReg | addImm | andReg | andImm | not | lea | ld | ldr | ldi =>
    cases h
    exact .writes ..
  case trap => exact exec_trap_setsFlagsOrWaits s h
  case getc => exact exec_trap_setsFlagsOrWaits (v := 0x20#8) s h
  case inp => exact exec_trap_setsFlagsOrWaits (v := 0x23#8) s h
  all_goals cases h

/-- Settles O7 (R106, R107): `condOf` is R106's case split; a flag-setting instruction that does
not wait ends in the shared write of a result, on which `SetFlags` changes nothing more. -/
theorem setFlagsFollowsTheValue : Obligations.SetFlagsFollowsTheValue := by
  refine ⟨fun s v => ?_, fun s dr v => ⟨?_, s.setRegFlags_eq_setFlags dr v⟩, ?_⟩
  · rw [State.setFlags, condOf_eq]
  · exact s.reg_setRegFlags_self dr v
  · intro i s t r _ hexec hflag hwait
    have h := exec_setsFlagsOrWaits s hflag
    rw [hexec] at h
    exact h.eq_setFlags hwait

end Sys2Proof.Machine

/-! ## Proofs: operate instructions (41_operate.md) -/

namespace Sys2Proof.Machine

/-! ### The shared write of a result (R120) and the mode bit (R85) -/

/-- The whole state after a result is written with its flags. -/
theorem State.setRegFlags_eq (s : State) (dr : RegIdx) (v : Word) :
    s.setRegFlags dr v = { s with regs := s.regs.set dr.toNat v, cond := condOf v } := rfl

/-- Selecting by a one-bit field of a word is selecting by that bit. -/
theorem ite_extractLsb'_one {α : Type} (w : Word) (k : Nat) (clear set : α) :
    (if w.extractLsb' k 1 = 0#1 then clear else set) = if w.getLsbD k then set else clear := by
  rw [extractLsb'_one]
  cases w.getLsbD k <;> rfl

/-! ### ADD, AND and NOT -/

/-- Settles O14 (R121): the mode bit alone selects the form, and both forms end in the shared
write of a result, whose sources are read in the state before it. -/
theorem addWritesTheWrappedSum : Obligations.AddWritesTheWrappedSum := by
  refine ⟨fun w hop => ?_, fun s dr sr1 sr2 => ?_, fun s dr sr1 imm5 => ?_⟩
  · rw [decode_of_opcode, hop]
    exact ite_extractLsb'_one w 5 ..
  · rw [exec_addReg, State.setRegFlags_eq]
  · rw [exec_addImm, State.setRegFlags_eq, sext]

/-- Settles O15 (R122), in the shape of ADD; the immediate is the sign-extended one. -/
theorem andWritesTheBitwiseAnd : Obligations.AndWritesTheBitwiseAnd := by
  refine ⟨fun w hop => ?_, fun s dr sr1 sr2 => ?_, fun s dr sr1 imm5 => ?_⟩
  · rw [decode_of_opcode, hop]
    exact ite_extractLsb'_one w 5 ..
  · rw [exec_andReg, State.setRegFlags_eq]
  · rw [exec_andImm, State.setRegFlags_eq, sext]

/-- Settles O16 (R123): NOT has no mode bit, so its decoding reads DR and SR only. -/
theorem notWritesTheComplement : Obligations.NotWritesTheComplement := by
  refine ⟨fun w hop => ?_, fun s dr sr => ?_⟩
  · rw [decode_of_opcode, hop]
  · rw [exec_not, State.setRegFlags_eq]

end Sys2Proof.Machine

/-! ## Proofs: control transfer (42_control.md) -/

namespace Sys2Proof.Machine

/-! ### The two state changes of a control transfer (R103) and the JSR mode bit (R85) -/

/-- The whole state after a jump. -/
theorem State.jump_eq (s : State) (target : Word) : s.jump target = { s with pc := target } := rfl

/-- The whole state after the return address is saved in R7. -/
theorem State.link_eq (s : State) : s.link = { s with regs := s.regs.set 7 s.pc } := rfl

/-- A one-bit field of a word is 1 exactly where its bit is set. -/
theorem extractLsb'_one_eq_one_iff (w : Word) (k : Nat) :
    w.extractLsb' k 1 = 1#1 ↔ w.getLsbD k = true := by
  rw [extractLsb'_one]
  cases w.getLsbD k <;> decide

/-! ### BR, JMP with RET, and JSR -/

/-- Settles O17 (R131): a taken BR is a jump to its PC-relative address, and one that is not
taken answers the state it was given. -/
theorem brAddsTheOffsetWhenTaken : Obligations.BrAddsTheOffsetWhenTaken := by
  refine ⟨fun w hop => ?_, fun s nzp off => ?_⟩
  · rw [decode_of_opcode, hop]
  · rw [exec_br, State.jump_eq, State.pcRel9, sext]

/-- Settles O18 (R130, R132): the JMP format reads BaseR and no other field, and JMP and RET are
each one jump to a register's value. -/
theorem jmpLoadsThePcFromBaseR : Obligations.JmpLoadsThePcFromBaseR := by
  refine ⟨fun w hop => ?_, fun s base => ?_, fun s => ?_⟩
  · simp only [decode_of_opcode, hop, selectJmp]
  · rw [exec_jmp, State.jump_eq]
  · rw [exec_ret, State.jump_eq]

/-- Settles O19 (R133): bit 11 selects the JSR form. The target is computed in the state before
R7 is written, and saving the return address leaves `pc` alone, so the order does not matter. -/
theorem jsrLinksAndBranches : Obligations.JsrLinksAndBranches := by
  refine ⟨fun w hop hmode => ?_, fun s off => ?_⟩
  · simp only [decode_of_opcode, hop, if_pos ((extractLsb'_one_eq_one_iff w 11).mpr hmode)]
  · rw [exec_jsr, State.jump_eq, State.link_eq, State.pcRel11, sext]

end Sys2Proof.Machine

/-! ## Proofs: loads, stores and LEA (43_load_store.md) -/

namespace Sys2Proof.Machine

/-! ### The load and the plain store the instructions share (R140) -/

/-- A read of memory, a keyboard poll included, leaves the registers alone. -/
theorem State.regs_of_memRead {s t : State} {a v : Word} (hread : s.memRead a = (v, t)) :
    t.regs = s.regs := by
  have hregs := (Quiet.memRead s a).regs
  rwa [hread] at hregs

/-- The whole state after a load, from what its read gives. -/
theorem State.load_of_memRead {s t : State} {ea v : Word} (hread : s.memRead ea = (v, t))
    (dr : RegIdx) :
    s.load dr ea = { t with regs := s.regs.set dr.toNat v, cond := condOf v } := by
  rw [State.load_eq, hread, State.regs_of_memRead hread]

/-- The pointer and the state of an indirect access, from what the pointer read gives. -/
theorem State.indirect9_of_memRead {s t : State} {off : BitVec 9} {p : Word}
    (hread : s.memRead (s.pc + off.signExtend 16) = (p, t)) : s.indirect9 off = (p, t) := hread

/-- An instruction that answers `r` after one memory write changes that cell of `r` and nothing
else (R45). -/
theorem exec_plainStore {i : Instr} {s r : State} {ea v : Word}
    (hexec : exec i s = .next (r.memWrite ea v)) :
    ∃ t, exec i s = .next t ∧ { t with mem := r.mem } = r ∧
      ∀ a, t.stored a = if a = ea then v else r.stored a :=
  ⟨r.memWrite ea v, hexec, r.memWrite_restore_mem ea v, fun a => r.stored_memWrite ea a v⟩

/-! ### LD, LDI, LDR and LEA -/

/-- Settles O21 (R141): LD is the shared load at its PC-relative address, KBSR's included. -/
theorem ldLoadsPcRelative : Obligations.LdLoadsPcRelative := by
  refine ⟨fun w hop => ?_, fun s t dr off v hread => ?_⟩
  · rw [decode_of_opcode, hop]
  · rw [exec_ld, State.pcRel9, sext, State.load_of_memRead hread]

/-- Settles O22 (R142): LDI is the shared load in the state its pointer read leaves, which has
the registers of the state before it. -/
theorem ldiLoadsThroughThePointer : Obligations.LdiLoadsThroughThePointer := by
  refine ⟨fun w hop => ?_, fun s t u dr off p v hptr hdata => ?_⟩
  · rw [decode_of_opcode, hop]
  · rw [exec_ldi, State.indirect9_of_memRead hptr, State.load_of_memRead hdata,
      State.regs_of_memRead hptr]

/-- Settles O23 (R143): the address of LDR is formed in the state before DR is written, so
DR = BaseR is no special case. -/
theorem ldrLoadsBasePlusOffset : Obligations.LdrLoadsBasePlusOffset := by
  refine ⟨fun w hop => ?_, fun s t dr base off v hread => ?_⟩
  · rw [decode_of_opcode, hop]
  · rw [exec_ldr, State.baseOff6, sext, State.load_of_memRead hread]

/-- Settles O24 (R144): LEA is the shared write of a result, and the result is the address. -/
theorem leaWritesTheAddress : Obligations.LeaWritesTheAddress := by
  refine ⟨fun w hop => ?_, fun s dr off => ?_⟩
  · rw [decode_of_opcode, hop]
  · rw [exec_lea, State.setRegFlags_eq, State.pcRel9, sext]

/-! ### ST, STI and STR -/

/-- Settles O25 (R145): ST is one plain store at its PC-relative address. -/
theorem stStoresPcRelative : Obligations.StStoresPcRelative := by
  refine ⟨fun w hop => ?_, fun s sr off => ?_⟩
  · rw [decode_of_opcode, hop]
  · exact exec_plainStore (exec_st sr off s)

/-- Settles O26 (R146): STI is one plain store at its pointer, in the state the pointer read
leaves; the value stored is SR before that read. -/
theorem stiStoresThroughThePointer : Obligations.StiStoresThroughThePointer := by
  refine ⟨fun w hop => ?_, fun s r sr off p hptr => ?_⟩
  · rw [decode_of_opcode, hop]
  · have hexec := exec_sti sr off s
    rw [State.indirect9_of_memRead hptr] at hexec
    exact exec_plainStore hexec

/-- Settles O27 (R147): STR is one plain store at base plus offset; SR and BaseR are read in the
state before it, so SR = BaseR is no special case. -/
theorem strStoresBasePlusOffset : Obligations.StrStoresBasePlusOffset := by
  refine ⟨fun w hop => ?_, fun s sr base off => ?_⟩
  · rw [decode_of_opcode, hop]
  · exact exec_plainStore (exec_str sr base off s)

end Sys2Proof.Machine

/-! ## Proofs: the character services and HALT (44_trap.md) -/

namespace Sys2Proof.Machine

/-! ### The two state changes every service is made of: the entry (R160) and console output -/

/-- The whole state after a trap entry. -/
theorem State.trapEntry_eq (s : State) :
    s.trapEntry = { s with regs := s.regs.set 7 s.pc } := State.link_eq s

/-- The whole state after one character is written to the console. -/
theorem State.writeChar_eq (s : State) (c : Byte) :
    s.writeChar c = { s with output := s.output ++ [c] } := rfl

/-- The whole state after several characters are written to the console. -/
theorem State.writeChars_eq (s : State) (cs : List Byte) :
    s.writeChars cs = { s with output := s.output ++ cs } := rfl

/-! ### GETC, OUT, IN and HALT -/

/-- Settles O31 (R162): the trap entry leaves `input` alone, so GETC's read finds the character
there, and what it delivers goes on top of the entry. -/
theorem getcReadsOneCharacter : Obligations.GetcReadsOneCharacter := by
  intro s c rest hinput
  have hentry : s.trapEntry.input = c :: rest := by rw [State.trapEntry_input, hinput]
  rw [exec_getc, State.getcRead_cons hentry, State.trapEntry_eq, zext8]

/-- Settles O32 (R163): the entry writes R7 only, so the R0 that OUT reads after it is the R0
before it. -/
theorem outWritesTheLowByteOfR0 : Obligations.OutWritesTheLowByteOfR0 := by
  intro s
  rw [exec_out, State.reg_zero_trapEntry, State.writeChar_eq, State.trapEntry_eq, lowByte]

/-- Settles O33 (R165): neither the entry nor the prompt touches `input`, so IN's read finds the
character there; its echo follows the prompt. -/
theorem inPromptsReadsAndEchoes : Obligations.InPromptsReadsAndEchoes := by
  intro s c rest hinput
  have hprompted : (s.trapEntry.writeChars Config.inPrompt).input = c :: rest := by
    rw [State.writeChars_input, State.trapEntry_input, hinput]
  rw [exec_inp, State.inRead_cons hprompted, State.writeChars_eq, State.trapEntry_eq, zext8]

/-- Settles O34 (R167): HALT is the entry, the notice, and the running flag cleared. -/
theorem haltWritesTheNoticeAndStops : Obligations.HaltWritesTheNoticeAndStops := by
  intro s
  rw [exec_halt, State.writeChars_eq, State.trapEntry_eq]

end Sys2Proof.Machine

/-! ## Proofs: reserved opcodes (45_reserved.md) -/

namespace Sys2Proof.Machine

/-- Settles O28 (R180, R182): the RTI format names no operand, so the opcode field alone selects
it, and RTI answers the state it was given. -/
theorem rtiChangesNothing : Obligations.RtiChangesNothing := by
  refine ⟨fun w hop => ?_, fun s => ?_⟩
  · rw [decode_of_opcode, hop]
  · rw [exec_rti]

end Sys2Proof.Machine

/-! ## Proofs: the Image Loader (70_reset_and_hazards.md) -/

namespace Sys2Proof.Machine

/-! ### The big-endian byte stream of a list of words (R214) -/

/-- A word's bytes in the order of an image's stream, high byte first (R214). -/
def wordBytes (w : Word) : List Byte := [w.extractLsb' 8 8, w.extractLsb' 0 8]

theorem imageWords_wordBytes_append (w : Word) (rest : List Byte) :
    imageWords (wordBytes w ++ rest) = w :: imageWords rest :=
  congrArg (· :: imageWords rest) (bigEndian_bytes w)

/-- The loader's reading of the stream undoes its writing. -/
theorem imageWords_flatMap_wordBytes (ws : List Word) :
    imageWords (ws.flatMap wordBytes) = ws := by
  induction ws with
  | nil => rfl
  | cons w ws ih => rw [List.flatMap_cons, imageWords_wordBytes_append, ih]

theorem length_flatMap_wordBytes (ws : List Word) :
    (ws.flatMap wordBytes).length = 2 * ws.length := by
  induction ws with
  | nil => rfl
  | cons w ws ih =>
    have hword : (wordBytes w).length = 2 := rfl
    rw [List.flatMap_cons, List.length_append, ih, hword, List.length_cons]
    omega

/-! ### Loading an image -/

/-- The converse of `loadImage_ok`: a stream of whole words, an origin and data that fit, is
loaded. -/
theorem loadImage_of_fits {b : List Byte} {origin : Word} {data : List Word} (m : Memory)
    (heven : b.length % 2 = 0) (hwords : imageWords b = origin :: data)
    (hfits : origin.toNat + data.length ≤ 65536) :
    loadImage b m = .ok (placeWords m origin.toNat data) := by
  have hnotOdd : ¬ b.length % 2 = 1 := by omega
  simp only [loadImage, hwords, if_neg hnotOdd, if_pos hfits]

/-- Settles O57 (R214): the stream of `o :: ws` is read as those words, so the load places `ws`
from `o` on, and `read_placeWords` says what every cell then holds. -/
theorem imageWordsAreReadBack : Obligations.ImageWordsAreReadBack := by
  intro m o ws hfits
  have heven : ((o :: ws).flatMap wordBytes).length % 2 = 0 := by
    rw [length_flatMap_wordBytes, Nat.mul_mod_right]
  exact ⟨placeWords m o.toNat ws,
    loadImage_of_fits m heven (imageWords_flatMap_wordBytes (o :: ws)) hfits,
    fun a _ => read_placeWords ws m o.toNat a⟩

end Sys2Proof.Machine

/-! ## Proofs: decoder and encoder (30_encoding.md) -/

namespace Sys2Proof.Machine

/-! ### Fields of a word (R70) and words that agree outside a mask (R86) -/

theorem extractLsb'_place_self {n : Nat} (lo : Nat) (f : BitVec n) (h : lo + n ≤ 16) :
    (place lo f).extractLsb' lo n = f := by
  ext k hk
  have hlo : lo + k < 16 := by omega
  rw [BitVec.getElem_extractLsb', getLsbD_place, Nat.add_sub_cancel_left,
    BitVec.getLsbD_eq_getElem hk]
  simp [hlo]

/-- A field that does not overlap the placed one reads zero. -/
theorem extractLsb'_place_of_disjoint {n lo start len : Nat} (f : BitVec n)
    (h : start + len ≤ lo ∨ lo + n ≤ start) : (place lo f).extractLsb' start len = 0#len := by
  ext k hk
  rw [BitVec.getElem_extractLsb', getLsbD_place, BitVec.getElem_zero]
  rcases h with h | h
  · simp [show start + k < lo by omega]
  · simp [BitVec.getLsbD_of_ge f (start + k - lo) (by omega)]

/-- A field placed where it was read from is the word's bits there. -/
theorem place_extractLsb' (w : Word) (lo len : Nat) :
    place lo (w.extractLsb' lo len) = w &&& place lo (BitVec.allOnes len) := by
  ext k hk
  rw [BitVec.getElem_and, getElem_place, getElem_place, BitVec.getLsbD_extractLsb',
    BitVec.getLsbD_allOnes]
  by_cases h : k < lo
  · simp [h]
  · simp [h, show lo + (k - lo) = k by omega, hk, Bool.and_comm]

/-- A field of known value, placed, is the word's bits there. -/
theorem place_of_extractLsb'_eq {w : Word} {lo len : Nat} {f : BitVec len}
    (h : w.extractLsb' lo len = f) : place lo f = w &&& place lo (BitVec.allOnes len) := by
  rw [← h, place_extractLsb']

/-- Two words agree outside a mask exactly when they are equal with its bits cleared. -/
theorem xor_and_not_eq_zero_iff (mask a b : Word) :
    (a ^^^ b) &&& ~~~mask = 0#16 ↔ a &&& ~~~mask = b &&& ~~~mask := by
  have distrib : (a ^^^ b) &&& ~~~mask = a &&& ~~~mask ^^^ b &&& ~~~mask := by
    ext k
    simp only [BitVec.getElem_and, BitVec.getElem_xor]
    exact Bool.and_xor_distrib_right ..
  rw [distrib, BitVec.xor_eq_zero_iff]

/-- Words that agree outside a mask have the same field where the mask is clear. -/
theorem extractLsb'_of_agree {mask a b : Word} (h : (a ^^^ b) &&& ~~~mask = 0#16) {lo len : Nat}
    (hmask : mask.extractLsb' lo len = 0#len) (hlen : lo + len ≤ 16) :
    b.extractLsb' lo len = a.extractLsb' lo len := by
  have clear (c : Word) : (c &&& ~~~mask).extractLsb' lo len = c.extractLsb' lo len := by
    ext k hk
    have hlt : lo + k < 16 := by omega
    have hbit : mask[lo + k] = false := by
      rw [← BitVec.getLsbD_eq_getElem, ← BitVec.getElem_extractLsb' hk, hmask,
        BitVec.getElem_zero]
    simp [hbit, hlt]
  rw [← clear a, (xor_and_not_eq_zero_iff mask a b).1 h, clear]

/-! ### The fields of an instruction's word (R71 to R82) -/

/-- The opcode field of an instruction's word, for every instruction at once. -/
theorem extractLsb'_opcode_encode (i : Instr) :
    (encode i).extractLsb' 12 4 = opcodeValue i.opcode :=
  match i with
  | .br nzp off => Laws.EncodeOpcode.br nzp off
  | .addReg dr sr1 sr2 => Laws.EncodeOpcode.addReg dr sr1 sr2
  | .addImm dr sr1 imm => Laws.EncodeOpcode.addImm dr sr1 imm
  | .ld dr off => Laws.EncodeOpcode.ld dr off
  | .st sr off => Laws.EncodeOpcode.st sr off
  | .jsrr base => Laws.EncodeOpcode.jsrr base
  | .jsr off => Laws.EncodeOpcode.jsr off
  | .andReg dr sr1 sr2 => Laws.EncodeOpcode.andReg dr sr1 sr2
  | .andImm dr sr1 imm => Laws.EncodeOpcode.andImm dr sr1 imm
  | .ldr dr base off => Laws.EncodeOpcode.ldr dr base off
  | .str sr base off => Laws.EncodeOpcode.str sr base off
  | .rti => Laws.EncodeOpcode.rti
  | .not dr sr => Laws.EncodeOpcode.not dr sr
  | .ldi dr off => Laws.EncodeOpcode.ldi dr off
  | .sti sr off => Laws.EncodeOpcode.sti sr off
  | .jmp base => Laws.EncodeOpcode.jmp base
  | .res => Laws.EncodeOpcode.res
  | .lea dr off => Laws.EncodeOpcode.lea dr off
  | .trap v => Laws.EncodeOpcode.trap v
  | .getc => Laws.EncodeOpcode.getc
  | .out => Laws.EncodeOpcode.out
  | .puts => Laws.EncodeOpcode.puts
  | .inp => Laws.EncodeOpcode.inp
  | .putsp => Laws.EncodeOpcode.putsp
  | .halt => Laws.EncodeOpcode.halt
  | .ret => Laws.EncodeOpcode.ret

/-- A field below the opcode is a field of the operand bits. -/
theorem extractLsb'_encode (i : Instr) {lo len : Nat} (h : lo + len ≤ 12) :
    (encode i).extractLsb' lo len = i.operandBits.extractLsb' lo len := by
  rw [encode, BitVec.extractLsb'_or, extractLsb'_place_of_disjoint _ (.inl h), BitVec.zero_or]

/-- No format ignores a bit of the opcode field. -/
theorem ignoredBits_opcode (i : Instr) : (ignoredBits i).extractLsb' 12 4 = 0#4 := by
  cases i <;> simp [ignoredBits]

/-- A field that the mask leaves clear, in a word that agrees with an instruction's word outside
the mask. -/
theorem extractLsb'_of_namedBits {i : Instr} {w mask : Word}
    (hw : (encode i ^^^ w) &&& ~~~mask = 0#16) {lo len : Nat}
    (hmask : mask.extractLsb' lo len = 0#len) (hlen : lo + len ≤ 12) :
    w.extractLsb' lo len = i.operandBits.extractLsb' lo len :=
  (extractLsb'_of_agree hw hmask (by omega)).trans (extractLsb'_encode i hlen)

/-! ### Decoding after encoding -/

/-- Every word that has the named bits of a well-formed instruction decodes to it: the opcode
field selects its format, and each field the format reads is the operand placed there. -/
theorem decode_of_namedBits {i : Instr} {w : Word} (hwf : i.wellFormed = true)
    (hw : (encode i ^^^ w) &&& ~~~ignoredBits i = 0#16) : decode w = i := by
  have hop : opcodeOf (w.extractLsb' 12 4) = i.opcode := by
    rw [extractLsb'_of_agree hw (ignoredBits_opcode i) (by decide), extractLsb'_opcode_encode,
      opcodeOf_opcodeValue]
  rw [decode_of_opcode, hop]
  cases i
  all_goals
    simp only [ignoredBits] at hw
    simp (disch := decide) only [Instr.opcode, extractLsb'_of_namedBits hw, Instr.operandBits,
      BitVec.extractLsb'_or, extractLsb'_place_self, extractLsb'_place_of_disjoint,
      BitVec.zero_or, BitVec.or_zero]
  case jmp base => exact if_neg (by simpa [Instr.wellFormed] using hwf)
  case trap v => exact selectTrap_trap (by simpa [Instr.wellFormed] using hwf)
  all_goals rfl

/-- Settles O1 (R70 to R85): the canonical word has its own named bits. -/
theorem decodeOfEncodeIsTheInstruction : Obligations.DecodeOfEncodeIsTheInstruction := by
  intro i hwf
  exact decode_of_namedBits hwf (by rw [BitVec.xor_self, BitVec.zero_and])

/-! ### Encoding after decoding -/

theorem wellFormed_selectJmp (base : RegIdx) : (selectJmp base).wellFormed = true := by
  unfold selectJmp
  split
  · rfl
  · simpa [Instr.wellFormed]

theorem wellFormed_selectTrap (v : BitVec 8) : (selectTrap v).wellFormed = true := by
  cases h : isServiceVector v with
  | false => rw [selectTrap_trap h]; simp [Instr.wellFormed, h]
  | true =>
    have : v = 0x20#8 ∨ v = 0x21#8 ∨ v = 0x22#8 ∨ v = 0x23#8 ∨ v = 0x24#8 ∨ v = 0x25#8 := by
      simp only [isServiceVector, Bool.and_eq_true, decide_eq_true_eq] at h
      bv_omega
    obtain rfl | rfl | rfl | rfl | rfl | rfl := this <;> rfl

/-- Every word decodes to the one term of its word (R87, R91). -/
theorem decode_wellFormed (w : Word) : (decode w).wellFormed = true := by
  rw [decode_of_opcode]
  cases opcodeOf (w.extractLsb' 12 4)
  case jmp => exact wellFormed_selectJmp _
  case trap => exact wellFormed_selectTrap _
  case add | and | jsr => dsimp only; split <;> rfl
  all_goals rfl

theorem opcode_selectJmp (base : RegIdx) : (selectJmp base).opcode = .jmp := by
  unfold selectJmp
  split <;> rfl

theorem opcode_selectTrap (v : BitVec 8) : (selectTrap v).opcode = .trap := by
  rw [selectTrap_eq]
  split_ifs <;> rfl

/-- The opcode of the decoded instruction is the one the opcode field names (R71). -/
theorem opcode_decode (w : Word) : (decode w).opcode = opcodeOf (w.extractLsb' 12 4) := by
  rw [decode_of_opcode]
  cases opcodeOf (w.extractLsb' 12 4)
  case jmp => exact opcode_selectJmp _
  case trap => exact opcode_selectTrap _
  case add | and | jsr => dsimp only; split <;> rfl
  all_goals rfl

theorem operandBits_selectJmp (base : RegIdx) : (selectJmp base).operandBits = place 6 base := by
  unfold selectJmp
  split <;> simp only [Instr.operandBits, *]

theorem ignoredBits_selectJmp (base : RegIdx) : ignoredBits (selectJmp base) = 0x0E3F#16 := by
  unfold selectJmp
  split <;> rfl

theorem operandBits_selectTrap (v : BitVec 8) : (selectTrap v).operandBits = place 0 v := by
  rw [selectTrap_eq]
  split_ifs <;> simp only [Instr.operandBits, *]

theorem ignoredBits_selectTrap (v : BitVec 8) : ignoredBits (selectTrap v) = 0x0F00#16 := by
  rw [selectTrap_eq]
  split_ifs <;> rfl

/-- The word's opcode field with the instruction's operand bits has every bit of the word that
the instruction's format names. -/
def KeepsNamedBits (w : Word) (i : Instr) : Prop :=
  (place 12 (w.extractLsb' 12 4) ||| i.operandBits) &&& ~~~ignoredBits i = w &&& ~~~ignoredBits i

/-- Every field that decoding reads is a mask of the word, a mode bit by its known value, and the
masks of a format cover all that it does not ignore. -/
theorem keepsNamedBits_decode (w : Word) : KeepsNamedBits w (decode w) := by
  rw [decode_of_opcode]
  cases opcodeOf (w.extractLsb' 12 4)
  case add | and =>
    obtain h | h := BitVec.eq_zero_or_eq_one (w.extractLsb' 5 1)
    all_goals
      simp only [KeepsNamedBits, h, reduceIte, BitVec.reduceEq, Instr.operandBits, ignoredBits,
        place_of_extractLsb'_eq h, place_extractLsb', ← BitVec.and_or_distrib_left,
        BitVec.and_assoc]
      rfl
  case jsr =>
    obtain h | h := BitVec.eq_zero_or_eq_one (w.extractLsb' 11 1)
    all_goals
      simp only [KeepsNamedBits, h, reduceIte, BitVec.reduceEq, Instr.operandBits, ignoredBits,
        place_of_extractLsb'_eq h, place_extractLsb', ← BitVec.and_or_distrib_left,
        BitVec.and_assoc]
      rfl
  case not =>
    have hones : place 0 0b111111#6 &&& ~~~0x003F#16 = 0#16 := by decide
    simp only [KeepsNamedBits, Instr.operandBits, ignoredBits, place_extractLsb',
      ← BitVec.and_or_distrib_left, ← BitVec.or_assoc, BitVec.and_or_distrib_right, hones,
      BitVec.and_assoc, BitVec.or_zero]
    rfl
  case jmp | trap =>
    simp only [KeepsNamedBits, operandBits_selectJmp, operandBits_selectTrap,
      ignoredBits_selectJmp, ignoredBits_selectTrap, place_extractLsb',
      ← BitVec.and_or_distrib_left, BitVec.and_assoc]
    rfl
  all_goals
    simp only [KeepsNamedBits, Instr.operandBits, ignoredBits, place_extractLsb',
      ← BitVec.and_or_distrib_left, BitVec.and_assoc, BitVec.or_zero]
    rfl

theorem encode_decode_agrees (w : Word) :
    (encode (decode w) ^^^ w) &&& ~~~ignoredBits (decode w) = 0#16 := by
  rw [xor_and_not_eq_zero_iff, encode, opcode_decode, opcodeValue_opcodeOf]
  exact keepsNamedBits_decode w

/-- Settles O2 (R86, R87): decoding spells each word in one way only, and its fields keep the
bits they were read from. -/
theorem encodeOfDecodeKeepsEveryNamedBit : Obligations.EncodeOfDecodeKeepsEveryNamedBit := by
  intro w
  exact ⟨decode_wellFormed w, encode_decode_agrees w⟩

/-- Settles O3 (R86): the second word has the named bits of the first, which are those of the
instruction that the first decodes to. -/
theorem wordsDifferingInIgnoredBitsDecodeAlike :
    Obligations.WordsDifferingInIgnoredBitsDecodeAlike := by
  intro w w' hdiffer
  refine decode_of_namedBits (decode_wellFormed w) ?_
  rw [xor_and_not_eq_zero_iff] at hdiffer ⊢
  exact ((xor_and_not_eq_zero_iff _ _ _).1 (encode_decode_agrees w)).trans hdiffer

/-! ### The opcode table (R71) and words written out (R72 to R82) -/

/-- Settles O4 (R72 to R82): the eight words are closed, and decoding computes. -/
theorem writtenOutWordsDecode : Obligations.WrittenOutWordsDecode := by
  unfold Obligations.WrittenOutWordsDecode
  decide

/-- Settles O5 (R71): the opcode field alone selects the opcode, and its 16 values are those of
the table. -/
theorem opcodeFieldSelectsByTheTable : Obligations.OpcodeFieldSelectsByTheTable := by
  intro w
  rw [opcode_decode]
  generalize w.extractLsb' 12 4 = field
  revert field
  decide

end Sys2Proof.Machine

/-! ## Proofs: what an instruction can do, said once for every instruction -/

namespace Sys2Proof.Machine

/-! ### A service's row is its TRAP word (30_encoding.md R91), in every table -/

section TrapVector

variable {i : Instr} {v : BitVec 8}

theorem exec_of_trapVector (h : trapVector i = some v) (s : State) :
    exec i s = exec (.trap v) s := by
  cases i <;> cases h <;> rfl

theorem regsWritten_of_trapVector (h : trapVector i = some v) :
    regsWritten i = if v = 0x20#8 ∨ v = 0x23#8 then [7#3, 0#3] else [7#3] := by
  cases i <;> cases h <;> rfl

theorem flagRegister_of_trapVector (h : trapVector i = some v) :
    flagRegister i = if v = 0x20#8 ∨ v = 0x23#8 then some 0#3 else none := by
  cases i <;> cases h
  case trap => exact flagRegister_trap v
  all_goals rfl

theorem mayPoll_of_trapVector (h : trapVector i = some v) (s : State) :
    mayPoll i s ↔ (v = 0x22#8 ∨ v = 0x24#8) ∧ Config.trapStrDeviceRead = true := by
  cases i <;> cases h <;> simp [mayPoll, trapVector]

theorem pcLeft_of_trapVector (h : trapVector i = some v) (s : State) : pcLeft i s = s.pc := by
  cases i <;> cases h <;> rfl

end TrapVector

/-! ### The reads of an instruction -/

/-- `u` is `s` after the reads that `i` makes in it: polls at most, and none where `i` does not
read KBSR. -/
structure AfterReads (i : Instr) (s u : State) : Prop where
  quiet : Quiet s u
  output : u.output = s.output
  pure : ¬mayPoll i s → u = s

namespace AfterReads

variable {i : Instr} {s u : State}

theorem refl (i : Instr) (s : State) : AfterReads i s s := ⟨Quiet.refl s, rfl, fun _ => rfl⟩

/-- One more read, which `mayPoll` names where it polls. -/
theorem memRead (h : AfterReads i s u) {a : Word} (ha : a = kbsrAddr → mayPoll i s) :
    AfterReads i s (u.memRead a).2 where
  quiet := h.quiet.trans (Quiet.memRead u a)
  output := (State.memRead_output u a).trans h.output
  pure := fun hpoll => by rw [State.memRead_pure (mt ha hpoll), h.pure hpoll]

theorem stored (h : AfterReads i s u) {a : Word}
    (ha : mayPoll i s → a ≠ kbsrAddr ∧ a ≠ kbdrAddr) : u.stored a = s.stored a := by
  by_cases hpoll : mayPoll i s
  · exact h.quiet.stored a (ha hpoll).1 (ha hpoll).2
  · rw [h.pure hpoll]

end AfterReads

/-! ### The eight things an instruction can do -/

/-- How `i`, executed in `s`, can leave the state. The hypotheses of a constructor are what the
tables of 10_state.md and 40_cycle.md say of the instructions that end this way. -/
inductive Effect (i : Instr) (s : State) : State → Prop where
  /-- Reads, then a result in DR with its flags (41_operate.md R120, 43_load_store.md R140). -/
  | result {u : State} {dr : RegIdx} (v : Word) (reads : AfterReads i s u)
      (vector : trapVector i = none) (flags : flagRegister i = some dr)
      (regs : regsWritten i = [dr]) (pc : pcLeft i s = s.pc) : Effect i s (u.setRegFlags dr v)
  /-- Reads, then a plain store (43_load_store.md R140). -/
  | store {u : State} {a : Word} (v : Word) (reads : AfterReads i s u)
      (vector : trapVector i = none) (flags : flagRegister i = none)
      (address : storeAddress i s = some a) (pc : pcLeft i s = s.pc) :
      Effect i s (u.memWrite a v)
  /-- A transfer of control, or nothing (42_control.md R130, 45_reserved.md R182). -/
  | transfer (vector : trapVector i = none) (flags : flagRegister i = none) :
      Effect i s (s.jump (pcLeft i s))
  /-- A transfer of control that saves the return address (42_control.md R133, R134). -/
  | call (vector : trapVector i = none) (flags : flagRegister i = none)
      (regs : regsWritten i = [7#3]) : Effect i s (s.link.jump (pcLeft i s))
  /-- The entry of a TRAP, then at most a string scan or a character of output (44_trap.md R163,
  R164, R166, R168). -/
  | service {v : BitVec 8} {t : State} (vector : trapVector i = some v)
      (other : v ∉ [0x20#8, 0x23#8, 0x25#8]) (quiet : Quiet s.trapEntry t)
      (silent : v ∉ [0x21#8, 0x22#8, 0x24#8] → t.output = s.output)
      (pure : ¬mayPoll i s → t.mem = s.mem ∧ t.input = s.input) : Effect i s t
  /-- HALT (44_trap.md R167). -/
  | halt (vector : trapVector i = some 0x25#8) :
      Effect i s { s.trapEntry.writeChars Config.haltNotice with running := false }
  /-- GETC or IN with a character there (44_trap.md R162, R165). -/
  | deliver {v : BitVec 8} {c : Byte} {rest out : List Byte} (vector : trapVector i = some v)
      (reader : v = 0x20#8 ∨ v = 0x23#8) (input : s.input = c :: rest)
      (output : ∃ written, out = s.output ++ written) (silent : v = 0x20#8 → out = s.output) :
      Effect i s ({ s.trapEntry with input := rest, output := out, awaitInput := .none }.setRegFlags
        0#3 (zext8 c))
  /-- GETC or IN with no character there (44_trap.md R171). -/
  | wait {v : BitVec 8} {out : List Byte} {w : Await} (vector : trapVector i = some v)
      (reader : v = 0x20#8 ∨ v = 0x23#8) (waits : w ≠ .none)
      (output : ∃ written, out = s.output ++ written) (silent : v = 0x20#8 → out = s.output) :
      Effect i s { s.trapEntry with output := out, awaitInput := w }

/-- GETC delivers a character or waits, and writes nothing (R162, R171). -/
theorem getc_effect {i : Instr} (s : State) (h : trapVector i = some 0x20#8) :
    Effect i s s.trapEntry.getcRead := by
  obtain ⟨c, rest, hinput, e⟩ | ⟨-, e⟩ := s.trapEntry.getcRead_cases <;> rw [e]
  · exact .deliver h (.inl rfl) hinput ⟨[], (List.append_nil _).symm⟩ fun _ => rfl
  · exact .wait h (.inl rfl) nofun ⟨[], (List.append_nil _).symm⟩ fun _ => rfl

/-- IN writes its prompt, then echoes and delivers a character or waits (R165, R171). -/
theorem inp_effect {i : Instr} (s : State) (h : trapVector i = some 0x23#8) :
    Effect i s (s.trapEntry.writeChars Config.inPrompt).inRead := by
  obtain ⟨c, rest, hinput, e⟩ | ⟨-, e⟩ :=
    (s.trapEntry.writeChars Config.inPrompt).inRead_cases <;> rw [e]
  · exact .deliver h (.inr rfl) hinput ⟨Config.inPrompt ++ [c], List.append_assoc ..⟩
      fun hgetc => absurd hgetc (by decide)
  · exact .wait h (.inr rfl) nofun ⟨Config.inPrompt, rfl⟩ fun hgetc => absurd hgetc (by decide)

/-- A string service that completes is its entry and a scan. -/
theorem string_effect {i : Instr} {v : BitVec 8} {s t : State} {chars : Word → Option (List Byte)}
    (vector : trapVector i = some v) (hv : v = 0x22#8 ∨ v = 0x24#8)
    (h : writeString chars s.trapEntry = .next t) : Effect i s t := by
  have quiet : Quiet s.trapEntry t := by
    obtain ⟨t', e, quiet⟩ | e := writeString_cases chars s.trapEntry
    · obtain rfl : t' = t := by rw [h] at e; cases e; rfl
      exact quiet
    · rw [h] at e; cases e
  refine .service vector ?_ quiet ?_ fun hpoll => ?_
  · rcases hv with rfl | rfl <;> decide
  · rcases hv with rfl | rfl <;> simp
  · have hd : Config.trapStrDeviceRead = false := by
      simpa [mayPoll_of_trapVector vector, hv] using hpoll
    exact writeString_direct_frame (s := s.trapEntry) hd h

/-- What a TRAP can do, by its vector (44_trap.md R161). -/
theorem trap_effect {i : Instr} {v : BitVec 8} {s t : State} (vector : trapVector i = some v)
    (h : exec i s = .next t) : Effect i s t := by
  rw [exec_of_trapVector vector, exec_trap] at h
  split_ifs at h with hgetc hout hputs hinp hputsp hhalt
  · subst hgetc; cases h; exact getc_effect s vector
  · subst hout; cases h
    exact .service vector (by decide) (Quiet.writeChars s.trapEntry [_]) (by simp)
      fun _ => ⟨rfl, rfl⟩
  · exact string_effect vector (.inl hputs) h
  · subst hinp; cases h; exact inp_effect s vector
  · exact string_effect vector (.inr hputsp) h
  · subst hhalt; cases h; exact .halt vector
  · cases h
    exact .service vector (by simp [hgetc, hinp, hhalt]) (Quiet.refl _) (fun _ => rfl)
      fun _ => ⟨rfl, rfl⟩

/-- What an instruction that completes has done. -/
theorem exec_effect {i : Instr} {s t : State} (h : exec i s = .next t) : Effect i s t := by
  cases i
  case addReg | addImm | andReg | andImm | not | lea =>
    cases h
    exact .result _ (.refl _ s) rfl rfl rfl rfl
  case ld | ldr =>
    cases h
    exact .result _ ((AfterReads.refl _ s).memRead id) rfl rfl rfl rfl
  case ldi =>
    cases h
    exact .result _ (((AfterReads.refl _ s).memRead Or.inl).memRead Or.inr) rfl rfl rfl rfl
  case st | str =>
    cases h
    exact .store _ (.refl _ s) rfl rfl rfl rfl
  case sti =>
    cases h
    exact .store _ ((AfterReads.refl _ s).memRead id) rfl rfl rfl rfl
  case br nzp off =>
    rw [exec_br] at h
    cases h
    have e : (if branchTaken nzp s.cond then s.jump (s.pcRel9 off) else s)
        = s.jump (pcLeft (.br nzp off) s) := by
      simp only [pcLeft]
      split <;> rfl
    rw [e]
    exact .transfer rfl rfl
  case jmp | ret | rti | res =>
    cases h
    exact .transfer rfl rfl
  case jsr =>
    cases h
    exact .call rfl rfl rfl
  case jsrr base =>
    rw [exec_jsrr, State.reg_link] at h
    cases h
    exact .call rfl rfl rfl
  all_goals exact trap_effect rfl h

end Sys2Proof.Machine

/-! ## Proofs: the rules over every instruction -/

namespace Sys2Proof.Machine

/-- The table names R7 for every TRAP. -/
theorem seven_mem_regsWritten {i : Instr} {v : BitVec 8} (h : trapVector i = some v) :
    7#3 ∈ regsWritten i := by
  rw [regsWritten_of_trapVector h]
  split <;> simp

/-- The table names R0 for GETC and IN. -/
theorem zero_mem_regsWritten {i : Instr} {v : BitVec 8} (h : trapVector i = some v)
    (hv : v = 0x20#8 ∨ v = 0x23#8) : 0#3 ∈ regsWritten i := by
  rw [regsWritten_of_trapVector h, if_pos hv]
  simp

/-- What a TRAP's entry leaves in the registers that its table entry does not name. -/
theorem State.reg_trapEntry_of_notMem {i : Instr} {v : BitVec 8} (h : trapVector i = some v)
    (s : State) {r : RegIdx} (hr : r ∉ regsWritten i) : s.trapEntry.reg r = s.reg r := by
  rw [State.reg_trapEntry, if_neg]
  rintro rfl
  exact hr (seven_mem_regsWritten h)

/-- Settles O43 (10_state.md R21): a register changes by a result in DR, the return address in
R7, or a character in R0, and the table names each. -/
theorem onlyNamedRegistersChange : Obligations.OnlyNamedRegistersChange := by
  intro i s t hexec r hr
  cases exec_effect hexec with
  | result v reads _ _ regs =>
    rw [State.reg_setRegFlags, State.reg_setReg_ne _ _ (by simpa [regs] using hr)]
    exact reads.quiet.reg r
  | store v reads => exact reads.quiet.reg r
  | transfer => rfl
  | call _ _ regs => rw [State.reg_jump, State.reg_link, if_neg (by simpa [regs] using hr)]
  | service vector _ quiet => rw [quiet.reg, State.reg_trapEntry_of_notMem vector s hr]
  | halt vector => exact State.reg_trapEntry_of_notMem vector s hr
  | deliver vector reader =>
    have hr0 : r ≠ 0#3 := by
      rintro rfl
      exact hr (zero_mem_regsWritten vector reader)
    rw [State.reg_setRegFlags, State.reg_setReg_ne _ _ hr0]
    exact State.reg_trapEntry_of_notMem vector s hr
  | wait vector => exact State.reg_trapEntry_of_notMem vector s hr

/-- GETC and IN set the flags on R0. -/
theorem flagRegister_of_reader {i : Instr} {v : BitVec 8} (h : trapVector i = some v)
    (hv : v = 0x20#8 ∨ v = 0x23#8) : flagRegister i = some 0#3 := by
  rw [flagRegister_of_trapVector h, if_pos hv]

/-- No other TRAP sets the flags. -/
theorem flagRegister_of_not_reader {i : Instr} {v : BitVec 8} (h : trapVector i = some v)
    (hv : ¬(v = 0x20#8 ∨ v = 0x23#8)) : flagRegister i = none := by
  rw [flagRegister_of_trapVector h, if_neg hv]

/-- `t.cond` is as 40_cycle.md R107 says after an instruction with flag register `f` in `s`. -/
def CondFollows (f : Option RegIdx) (s t : State) : Prop :=
  (f = none → t.cond = s.cond) ∧
    ∀ r, f = some r → if t.awaitInput = .none then t.cond = condOf (t.reg r) else t.cond = s.cond

theorem CondFollows.of_unchanged {s t : State} (h : t.cond = s.cond) : CondFollows none s t :=
  ⟨fun _ => h, nofun⟩

/-- A result written to the flag register, in a state that does not wait. -/
theorem CondFollows.of_setRegFlags (s u : State) (r : RegIdx) (v : Word)
    (h : u.awaitInput = .none) : CondFollows (some r) s (u.setRegFlags r v) := by
  refine ⟨nofun, fun r' e => ?_⟩
  obtain rfl := Option.some.inj e
  rw [State.setRegFlags_awaitInput, if_pos h, State.reg_setRegFlags_self, State.setRegFlags_cond]

/-- Settles O44 (40_cycle.md R107): `cond` is written with a result, or with GETC's or IN's
character, and by nothing else. -/
theorem condFollowsTheFlagSettingWrite : Obligations.CondFollowsTheFlagSettingWrite := by
  intro i s t hrun hexec
  show CondFollows (flagRegister i) s t
  cases exec_effect hexec with
  | result v reads _ flags =>
    rw [flags]
    exact .of_setRegFlags s _ _ v (reads.quiet.awaitInput.trans hrun)
  | store v reads _ flags => rw [flags]; exact .of_unchanged reads.quiet.cond
  | transfer _ flags => rw [flags]; exact .of_unchanged rfl
  | call _ flags => rw [flags]; exact .of_unchanged rfl
  | @service v _ vector other quiet =>
    have hnot : ¬(v = 0x20#8 ∨ v = 0x23#8) := fun hv => other (by rcases hv with rfl | rfl <;> simp)
    rw [flagRegister_of_not_reader vector hnot]
    exact .of_unchanged quiet.cond
  | halt vector =>
    rw [flagRegister_of_not_reader vector (by decide)]
    exact .of_unchanged rfl
  | deliver vector reader =>
    rw [flagRegister_of_reader vector reader]
    exact .of_setRegFlags s _ _ _ rfl
  | wait vector reader waits =>
    rw [flagRegister_of_reader vector reader]
    exact ⟨nofun, fun r _ => by rw [if_neg waits]; rfl⟩

/-- Settles O45 (20_memory.md R41, R45): a cell changes by a store, at the address computed, or
by the polls of the reads. -/
theorem memoryChangesOnlyByStoreOrPoll : Obligations.MemoryChangesOnlyByStoreOrPoll := by
  intro i s t hexec a hstore hpoll
  cases exec_effect hexec with
  | result v reads => exact reads.stored hpoll
  | store v reads _ _ address =>
    have ha : a ≠ _ := fun e => hstore (e ▸ address)
    rw [State.stored_memWrite, if_neg ha]
    exact reads.stored hpoll
  | service _ _ quiet _ pure =>
    by_cases hmay : mayPoll i s
    · exact quiet.stored a (hpoll hmay).1 (hpoll hmay).2
    · rw [State.stored, (pure hmay).1, State.stored]
  | transfer | call | halt | deliver | wait => rfl

/-- Settles O46 (10_state.md R36, 20_memory.md R53, 60_exceptions.md R199, R203): each effect
extends the output by what its service writes, and takes of the input what its reads take. -/
theorem consoleMovesOnlyByServicesAndPolls : Obligations.ConsoleMovesOnlyByServicesAndPolls := by
  refine ⟨fun i s t hexec => ?_, fun _ _ => rfl⟩
  cases exec_effect hexec with
  | result v reads | store v reads =>
    exact ⟨reads.quiet.output, reads.quiet.input, fun _ => reads.output,
      fun hpoll _ => by simp [reads.pure hpoll]⟩
  | transfer | call => exact ⟨⟨[], by simp⟩, ⟨[], rfl⟩, fun _ => rfl, fun _ _ => rfl⟩
  | service vector _ quiet silent pure =>
    refine ⟨quiet.output, quiet.input, fun h => silent fun hv => h ?_,
      fun hpoll _ => (pure hpoll).2⟩
    rw [vector]
    fin_cases hv <;> simp
  | halt vector =>
    exact ⟨⟨Config.haltNotice, rfl⟩, ⟨[], rfl⟩, fun h => absurd (by simp [vector]) h,
      fun _ _ => rfl⟩
  | @deliver v c rest out vector reader input output silent =>
    exact ⟨output, ⟨[c], input⟩,
      fun h => silent (reader.resolve_right fun e => h (by simp [vector, e])),
      fun _ h => absurd (by simp [vector, reader]) h⟩
  | wait vector reader _ output silent =>
    exact ⟨output, ⟨[], rfl⟩,
      fun h => silent (reader.resolve_right fun e => h (by simp [vector, e])), fun _ _ => rfl⟩

/-- Settles O47 (10_state.md R24): only a transfer of control writes `pc`, with the value of the
table. -/
theorem pcIsLeftAsTheTableSays : Obligations.PcIsLeftAsTheTableSays := by
  refine ⟨fun s => s.fetch_pc, fun i s t hexec => ?_⟩
  cases exec_effect hexec with
  | result v reads _ _ _ pc => exact reads.quiet.pc.trans pc.symm
  | store v reads _ _ _ pc => exact reads.quiet.pc.trans pc.symm
  | transfer | call => rfl
  | service vector _ quiet => exact quiet.pc.trans (pcLeft_of_trapVector vector s).symm
  | halt vector | deliver vector | wait vector => exact (pcLeft_of_trapVector vector s).symm

end Sys2Proof.Machine

/-! ## Proofs: the steps, the running flag and the invariant -/

namespace Sys2Proof.Machine

/-! ### What an instruction does to the running flag, to memory's form and to the wait -/

/-- Only HALT's vector clears the running flag. -/
theorem Effect.running {i : Instr} {s t : State} (h : Effect i s t) :
    t.running = if trapVector i = some 0x25#8 then false else s.running := by
  cases h with
  | result v reads vector => rw [vector]; exact reads.quiet.running
  | store v reads vector => rw [vector]; exact reads.quiet.running
  | transfer vector | call vector => rw [vector]; rfl
  | service vector other quiet =>
    have hno : trapVector i ≠ some 0x25#8 := by
      rw [vector]
      exact fun e => other (by simp [Option.some.inj e])
    rw [if_neg hno, quiet.running, State.trapEntry_running]
  | halt vector => rw [if_pos vector]
  | deliver vector reader | wait vector reader =>
    rw [if_neg (by rw [vector]; rcases reader with rfl | rfl <;> decide)]
    rfl

/-- Every instruction keeps the canonical form of memory. -/
theorem Effect.wf {i : Instr} {s t : State} (h : Effect i s t) (hs : s.mem.wf = true) :
    t.mem.wf = true := by
  cases h with
  | result v reads => exact reads.quiet.wf hs
  | store v reads => exact State.memWrite_wf _ _ _ (reads.quiet.wf hs)
  | service _ _ quiet => exact quiet.wf hs
  | transfer | call | halt | deliver | wait => exact hs

/-- An instruction that leaves the machine waiting has made its trap entry and does not stop it. -/
theorem Effect.waiting {i : Instr} {s t : State} (h : Effect i s t) (hs : s.awaitInput = .none)
    (ht : t.awaitInput ≠ .none) : t.running = s.running ∧ t.reg 7#3 = t.pc := by
  cases h with
  | result v reads => exact absurd (reads.quiet.awaitInput.trans hs) ht
  | store v reads => exact absurd (reads.quiet.awaitInput.trans hs) ht
  | service _ _ quiet => exact absurd (quiet.awaitInput.trans hs) ht
  | transfer | call | halt => exact absurd hs ht
  | deliver => exact absurd rfl ht
  | wait => exact ⟨rfl, State.reg_trapEntry s 7#3⟩

/-! ### What a step can do -/

/-- GETC goes on after its wait to the delivery of its character (44_trap.md R171). -/
theorem resumeWait_getc {s : State} {c : Byte} {rest : List Byte} (hw : s.awaitInput = .getc)
    (hinput : s.input = c :: rest) :
    resumeWait s = .next { s with
      regs := s.regs.set 0 (zext8 c), cond := condOf (zext8 c), input := rest,
      awaitInput := .none } := by
  rw [resumeWait_cons hinput, hw]
  exact congrArg Host.Outcome.next (State.getcRead_cons hinput)

/-- IN goes on after its wait to the echo and the delivery of its character (R171). -/
theorem resumeWait_inp {s : State} {c : Byte} {rest : List Byte} (hw : s.awaitInput = .inp)
    (hinput : s.input = c :: rest) :
    resumeWait s = .next { s with
      regs := s.regs.set 0 (zext8 c), cond := condOf (zext8 c), input := rest,
      output := s.output ++ [c], awaitInput := .none } := by
  rw [resumeWait_cons hinput, hw]
  exact congrArg Host.Outcome.next (State.inRead_cons hinput)

/-- A service that goes on after its wait, with a character there, is over, and leaves memory
and the running flag alone (44_trap.md R171). -/
theorem resumeWait_next {s t : State} (hw : s.awaitInput ≠ .none) (h : resumeWait s = .next t) :
    t.awaitInput = .none ∧ t.running = s.running ∧ t.mem = s.mem := by
  cases hi : s.input with
  | nil => rw [resumeWait_nil hi] at h; cases h
  | cons c rest =>
    cases e : s.awaitInput with
    | none => exact absurd e hw
    | getc => rw [resumeWait_getc e hi] at h; cases h; exact ⟨rfl, rfl, rfl⟩
    | inp => rw [resumeWait_inp e hi] at h; cases h; exact ⟨rfl, rfl, rfl⟩

/-- A step that answers a state is that of a running machine, which executes the fetched
instruction, or goes on after its wait. -/
theorem step_next_cases {s t : State} (h : step s = .next t) :
    s.running = true ∧
      (s.awaitInput = .none ∧ Effect (decode s.fetch.1) s.fetch.2 t ∨
        s.awaitInput ≠ .none ∧ t.awaitInput = .none ∧ t.running = true ∧ t.mem = s.mem) := by
  cases hrun : s.running with
  | false => rw [step_halted hrun] at h; cases h
  | true =>
    refine ⟨rfl, ?_⟩
    by_cases hw : s.awaitInput = .none
    · rw [step_running hrun hw] at h
      exact .inl ⟨hw, exec_effect h⟩
    · rw [step_waiting hrun hw] at h
      obtain ⟨hdone, hrunning, hmem⟩ := resumeWait_next hw h
      exact .inr ⟨hw, hdone, hrunning.trans hrun, hmem⟩

/-- A decoded instruction is the row of its vector (30_encoding.md R91). -/
theorem decode_eq_selectTrap {w : Word} {v : BitVec 8} (h : trapVector (decode w) = some v) :
    decode w = selectTrap v := by
  have hwf := decode_wellFormed w
  cases hi : decode w <;> rw [hi] at h hwf <;> cases h
  case trap => exact (selectTrap_trap (by simpa [Instr.wellFormed] using hwf)).symm
  all_goals rfl

/-- Settles O50 (10_state.md R33, 40_cycle.md R104): of the effects HALT alone clears the running
flag, and a service that goes on after its wait leaves it set. -/
theorem onlyHaltStopsTheMachine : Obligations.OnlyHaltStopsTheMachine := by
  intro s t hstep
  obtain ⟨hrun, ⟨hw, effect⟩ | ⟨hw, -, hrunning, -⟩⟩ := step_next_cases hstep
  · have hfetch : s.fetch.2.running = true := (Quiet.fetch s).running.trans hrun
    have hhalt : trapVector (decode s.fetch.1) = some 0x25#8 ↔ decode s.fetch.1 = .halt :=
      ⟨decode_eq_selectTrap, fun h => by rw [h]; rfl⟩
    refine ⟨hrun, ?_⟩
    rw [effect.running, hfetch, ← hhalt, and_iff_right hw]
    exact ⟨fun h => by_contra fun hno => Bool.noConfusion ((if_neg hno).symm.trans h),
      fun h => if_pos h⟩
  · exact ⟨hrun, by simp [hrunning, hw]⟩

/-- Settles O51 (44_trap.md R171, R172): an instruction that leaves the machine waiting has made
its trap entry, and a service that goes on after its wait has ended it. -/
theorem everyStepKeepsTheInvariant : Obligations.EveryStepKeepsTheInvariant := by
  rintro s ⟨hmem, hwaiting⟩
  refine ⟨fun t hstep => ?_, fun cs => ⟨hmem, hwaiting⟩⟩
  obtain ⟨hrun, ⟨hw, effect⟩ | ⟨-, hdone, -, hsame⟩⟩ := step_next_cases hstep
  · have quiet := Quiet.fetch s
    refine ⟨effect.wf (quiet.wf hmem), fun hwait => ?_⟩
    obtain ⟨hrunning, hr7⟩ := effect.waiting (quiet.awaitInput.trans hw) hwait
    exact ⟨hrunning.trans (quiet.running.trans hrun), hr7⟩
  · exact ⟨hsame ▸ hmem, fun hwait => absurd hdone hwait⟩

/-- Settles O52 (70_reset_and_hazards.md R210): nothing is listed in memory and nothing waits. -/
theorem resetMeetsTheInvariant : Obligations.ResetMeetsTheInvariant := by
  have h (gpr : Vector Word 8) (input : List Byte) : (State.resetWith gpr input).Inv :=
    ⟨rfl, fun hwait => absurd rfl hwait⟩
  exact ⟨h _ _, h⟩

/-- What every step and every append keeps holds of every state reached. -/
theorem Reaches.inv {s t : State} (h : Reaches s t) (hs : s.Inv) : t.Inv := by
  induction h with
  | refl => exact hs
  | core _ hstep ih => exact (everyStepKeepsTheInvariant _ ih).1 _ hstep
  | host cs _ ih => exact (everyStepKeepsTheInvariant _ ih).2 cs

/-- Settles O53: loading keeps the canonical form of the empty memory, so a run starts in the
invariant. -/
theorem everyReachedStateMeetsTheInvariant : Obligations.EveryReachedStateMeetsTheInvariant := by
  intro gpr input images s t hboot hreach
  obtain ⟨m, hload, rfl⟩ := boot_ok hboot
  exact hreach.inv ⟨wf_loadImages Memory.wf_nil hload, fun hwait => absurd rfl hwait⟩

end Sys2Proof.Machine

/-! ## Proofs: the string services (44_trap.md R164, R166, R170) -/

namespace Sys2Proof.Machine

/-! ### The scan of memory is its loop -/

/-- The loop that PUTS and PUTSP share, from address `a` in state `s`, exits in `t`: `chars` says
what a word makes it write, and where it ends. -/
inductive ScanLoop (chars : Word → Option (List Byte)) : Word → State → State → Prop where
  | exit {a : Word} {s : State} : chars (s.strRead a).1 = none →
      ScanLoop chars a s (s.strRead a).2
  | go {a : Word} {s t : State} {cs : List Byte} : chars (s.strRead a).1 = some cs →
      ScanLoop chars (a + 1#16) ((s.strRead a).2.writeChars cs) t → ScanLoop chars a s t

namespace ScanLoop

variable {chars : Word → Option (List Byte)}

/-- The loop exits in one state at most. -/
theorem unique {a : Word} {s t u : State} (h : ScanLoop chars a s t) (k : ScanLoop chars a s u) :
    t = u := by
  induction h with
  | exit hend =>
    cases k with
    | exit => rfl
    | go hgo => rw [hend] at hgo; cases hgo
  | go hgo _ ih =>
    cases k with
    | exit hend => rw [hgo] at hend; cases hend
    | go hgo' hrest =>
      obtain rfl := Option.some.inj (hgo.symm.trans hgo')
      exact ih hrest

/-- A scan that reads the terminator is the loop to its exit. -/
theorem of_scanWords_true {n : Nat} {a : Word} {s : State}
    (h : (scanWords chars n a s).1 = true) : ScanLoop chars a s (scanWords chars n a s).2 := by
  induction n generalizing a s with
  | zero => cases h
  | succ n ih =>
    cases hc : chars (s.strRead a).1 with
    | none => rw [scanWords_stop hc]; exact .exit hc
    | some cs => rw [scanWords_go hc] at h ⊢; exact .go hc (ih h)

/-- A scan that does not read the terminator is as many iterations of the loop. -/
theorem of_scanWords_false {n : Nat} {a : Word} {s t : State}
    (h : (scanWords chars n a s).1 = false)
    (hrest : ScanLoop chars (a + BitVec.ofNat 16 n) (scanWords chars n a s).2 t) :
    ScanLoop chars a s t := by
  induction n generalizing a s with
  | zero => simpa [scanWords_zero] using hrest
  | succ n ih =>
    cases hc : chars (s.strRead a).1 with
    | none => rw [scanWords_stop hc] at h; cases h
    | some cs =>
      rw [scanWords_go hc] at h hrest
      refine .go hc (ih h ?_)
      rwa [BitVec.add_assoc, BitVec.add_comm 1#16, ← BitVec.ofNat_add]

/-- A pass over the whole of memory ends at the address it began at, so passes are iterations of
the loop. -/
theorem of_scanString {n : Nat} {a : Word} {s t : State} (h : scanString chars n a s = .next t) :
    ScanLoop chars a s t := by
  induction n generalizing s with
  | zero => cases h
  | succ n ih =>
    rw [scanString] at h
    cases hpass : (scanWords chars 65536 a s).1 with
    | true => rw [if_pos hpass] at h; cases h; exact of_scanWords_true hpass
    | false =>
      have wraps : a + BitVec.ofNat 16 65536 = a := BitVec.add_zero a
      cases hd : Config.trapStrDeviceRead with
      | false => simp [hpass, hd] at h
      | true => exact of_scanWords_false hpass (wraps.symm ▸ ih (by simpa [hpass, hd] using h))

/-- Where the cells are read directly, a loop that exits has read a cell that ends it. -/
theorem exists_terminator (hd : Config.trapStrDeviceRead = false) {a : Word} {s t : State}
    (h : ScanLoop chars a s t) : ∃ b, chars (s.stored b) = none := by
  induction h with
  | @exit a s hend =>
    rw [State.strRead_pure (.inr hd)] at hend
    exact ⟨a, hend⟩
  | @go a s t cs _ _ ih =>
    rw [State.strRead_pure (.inr hd)] at ih
    exact ih

end ScanLoop

/-- A string service completes exactly where its loop exits (R170). -/
theorem writeString_eq_next_iff {chars : Word → Option (List Byte)} (h0 : chars 0x0000#16 = none)
    (s t : State) : writeString chars s = .next t ↔ ScanLoop chars (s.reg 0#3) s t := by
  refine ⟨ScanLoop.of_scanString, fun hloop => ?_⟩
  obtain ⟨u, e, -⟩ | e := writeString_cases chars s
  · rw [e, hloop.unique (ScanLoop.of_scanString e)]
  · obtain ⟨hd, hnone⟩ := (writeString_unterminated h0 s).1 e
    obtain ⟨b, hb⟩ := hloop.exists_terminator hd
    exact absurd hb (hnone b)

/-! ### The loops of the rules -/

theorem putsChars_zero : putsChars 0x0000#16 = none := rfl

theorem putspChars_zero : putspChars 0x0000#16 = none := rfl

theorem putsChars_of_ne {w : Word} (h : w ≠ 0x0000#16) : putsChars w = some [lowByte w] :=
  if_neg h

theorem putspChars_of_ne {w : Word} (h : lowByte w ≠ 0x00#8) :
    putspChars w =
      some (if highByte w = 0x00#8 then [lowByte w] else [lowByte w, highByte w]) :=
  if_neg h

theorem State.writeChars_pair (s : State) (c d : Byte) :
    s.writeChars [c, d] = (s.writeChar c).writeChar d := by
  simp [State.writeChars, State.writeChar]

theorem putsLoop_iff {a : Word} {s t : State} :
    PutsLoop a s t ↔ ScanLoop putsChars a s t := by
  constructor <;> intro h
  · induction h with
    | exit hzero => exact .exit ((putsChars_eq_none _).2 hzero)
    | go hne _ ih => exact .go (putsChars_of_ne hne) ih
  · induction h with
    | exit hend => exact .exit ((putsChars_eq_none _).1 hend)
    | @go a s t cs hgo _ ih =>
      have hne : (s.strRead a).1 ≠ 0x0000#16 := fun e => by rw [e] at hgo; cases hgo
      rw [putsChars_of_ne hne] at hgo
      cases hgo
      exact .go hne ih

theorem putspLoop_iff {a : Word} {s t : State} :
    PutspLoop a s t ↔ ScanLoop putspChars a s t := by
  constructor <;> intro h
  · induction h with
    | exit hzero => exact .exit ((putspChars_eq_none _).2 hzero)
    | goLow hlow hhigh _ ih =>
      exact .go ((putspChars_of_ne hlow).trans (congrArg some (if_pos hhigh))) ih
    | goBoth hlow hhigh _ ih =>
      refine .go ((putspChars_of_ne hlow).trans (congrArg some (if_neg hhigh))) ?_
      rwa [State.writeChars_pair]
  · induction h with
    | exit hend => exact .exit ((putspChars_eq_none _).1 hend)
    | @go a s t cs hgo _ ih =>
      have hlow : lowByte (s.strRead a).1 ≠ 0x00#8 := fun e => by
        rw [(putspChars_eq_none _).2 e] at hgo; cases hgo
      rw [putspChars_of_ne hlow] at hgo
      by_cases hhigh : highByte (s.strRead a).1 = 0x00#8
      · rw [if_pos hhigh] at hgo
        cases hgo
        exact .goLow hlow hhigh ih
      · rw [if_neg hhigh] at hgo
        cases hgo
        rw [State.writeChars_pair] at ih
        exact .goBoth hlow hhigh ih

/-- Settles O39 (R164, R170): the passes of the scan are the loop, which ends in one state at
most, and a scan that is stopped as unterminated is a loop that never exits. -/
theorem putsIsItsLoop : Obligations.PutsIsItsLoop := by
  intro s t
  rw [exec_puts, writeString_eq_next_iff putsChars_zero, State.reg_zero_trapEntry, putsLoop_iff]

/-- Settles O40 (R166, R170), as O39: both loops are the shared one. -/
theorem putspIsItsLoop : Obligations.PutspIsItsLoop := by
  intro s t
  rw [exec_putsp, writeString_eq_next_iff putspChars_zero, State.reg_zero_trapEntry,
    putspLoop_iff]

/-! ### A string in memory -/

/-- A string service on a string that memory holds, away from a device read. -/
theorem writeString_of_string {chars : Word → Option (List Byte)} (written : Word → List Byte)
    {ws : List Word} {s : State} (hlen : ws.length < 65536)
    (hw : ∀ w ∈ ws, chars w = some (written w))
    (hs : ∀ (k : Nat) (w : Word), ws[k]? = some w →
      s.stored (s.reg 0#3 + BitVec.ofNat 16 k) = w)
    (hend : chars (s.stored (s.reg 0#3 + BitVec.ofNat 16 ws.length)) = none)
    (hd : (∀ k : Nat, k ≤ ws.length → s.reg 0#3 + BitVec.ofNat 16 k ≠ kbsrAddr) ∨
      Config.trapStrDeviceRead = false) :
    writeString chars s = .next (s.writeChars (ws.flatMap written)) := by
  rw [writeString, scanString, scanWords_string chars written 65536 ws _ s hlen hw hs hend hd]
  rfl

/-- Settles O37 (R164): the scan sees R0 and memory as they were before the entry, and writes the
low byte of each word. -/
theorem putsWritesTheString : Obligations.PutsWritesTheString := by
  intro s ws hlen hne hs hend hd
  rw [← State.reg_zero_trapEntry] at hs hend hd
  rw [exec_puts, writeString_of_string (fun w => [lowByte w]) hlen
    (fun w hw => putsChars_of_ne (hne w hw)) hs ((putsChars_eq_none _).2 hend) hd,
    ← List.map_eq_flatMap]
  rfl

/-- Settles O38 (R166): as O37, with the bytes of a packed word. -/
theorem putspWritesThePackedString : Obligations.PutspWritesThePackedString := by
  intro s ws hlen hne hs hend hd
  rw [← State.reg_zero_trapEntry] at hs hend hd
  rw [exec_putsp, writeString_of_string (s := s.trapEntry) _ hlen
    (fun w hw => putspChars_of_ne (hne w hw)) hs ((putspChars_eq_none _).2 hend) hd]
  rfl

/-! ### Completion -/

/-- Settles O41 (R170): with its `chars`, each service ends at the cells the statement names. -/
theorem stringServicesCompleteOrAreUnterminated :
    Obligations.StringServicesCompleteOrAreUnterminated := by
  intro s
  refine ⟨?_, ?_, ?_, ?_⟩
  · rw [exec_puts, writeString_unterminated putsChars_zero]
    simp only [ne_eq, putsChars_eq_none, State.stored_trapEntry]
  · exact (exec_next_or_unterminated .puts s).symm
  · rw [exec_putsp, writeString_unterminated putspChars_zero]
    simp only [ne_eq, putspChars_eq_none, State.stored_trapEntry, lowByte]
  · exact (exec_next_or_unterminated .putsp s).symm

/-- A string service with a terminator in memory completes after polls and output alone. -/
theorem writeString_of_terminator {chars : Word → Option (List Byte)}
    (h0 : chars 0x0000#16 = none) {s : State} {a : Word} (ha : chars (s.stored a) = none) :
    ∃ t, writeString chars s = .next t ∧ Quiet s t := by
  refine (writeString_cases chars s).resolve_right fun e => ?_
  exact ((writeString_unterminated h0 s).1 e).2 a ha

/-- What a quiet service leaves, in terms of the state before its trap entry. -/
theorem Quiet.after_trapEntry {s t : State} (h : Quiet s.trapEntry t) :
    (t.regs, t.pc, t.cond, t.running, t.awaitInput)
        = (s.regs.set 7 s.pc, s.pc, s.cond, s.running, s.awaitInput) ∧
      ∀ a, a ≠ 0xFE00#16 → a ≠ 0xFE02#16 → t.stored a = s.stored a :=
  ⟨by rw [h.regs, h.pc, h.cond, h.running, h.awaitInput]; rfl, h.stored⟩

/-- Settles O42 (R164, R166, R169): a service that completes is its entry, which writes R7, and
polls and output alone. -/
theorem terminatedStringServicesComplete : Obligations.TerminatedStringServicesComplete := by
  intro s
  constructor
  · rintro ⟨a, ha⟩
    obtain ⟨t, hexec, quiet⟩ :=
      writeString_of_terminator (s := s.trapEntry) putsChars_zero ((putsChars_eq_none _).2 ha)
    exact ⟨t, hexec, quiet.after_trapEntry⟩
  · rintro ⟨a, ha⟩
    obtain ⟨t, hexec, quiet⟩ :=
      writeString_of_terminator (s := s.trapEntry) putspChars_zero ((putspChars_eq_none _).2 ha)
    exact ⟨t, hexec, quiet.after_trapEntry⟩

end Sys2Proof.Machine

/-! ## Proofs: the keyboard registers, the branch test and single instructions -/

namespace Sys2Proof.Machine

/-! ### Device reads (20_memory.md R42 to R44, R58) -/

/-- What KBDR holds after a poll that found a key (R43). -/
theorem State.stored_kbdr_devicePoll {s : State} {c : Byte} {rest : List Byte}
    (h : s.input = c :: rest) : s.devicePoll.stored kbdrAddr = zext8 c := by
  rw [State.devicePoll_cons h, State.stored_memWrite, if_pos rfl]

/-- Settles O11 (R44): only KBSR's address polls, and a poll that found a key has left its code
in KBDR. -/
theorem readsAwayFromKbsrArePure : Obligations.ReadsAwayFromKbsrArePure := by
  refine ⟨fun s a ha => ?_, fun s c rest hinput => ?_⟩
  · have hread : s.memRead a = (s.stored a, s) := State.memRead_pure ha
    exact ⟨hread, by rw [hread, hread]⟩
  · have hkbdr : kbdrAddr ≠ kbsrAddr := by decide
    show ((s.memRead kbsrAddr).2.memRead kbdrAddr).1 = zext8 c
    rw [State.memRead_kbsr, State.memRead_pure hkbdr, State.stored_kbdr_devicePoll hinput]

/-- Settles O12 (R42, R43): the read is of the cells that its own poll has just written. -/
theorem kbsrReadPolls : Obligations.KbsrReadPolls := by
  refine ⟨fun s hinput => ⟨s.devicePoll, ?_, ?_, fun a => ?_⟩,
    fun s c rest hinput => ⟨s.devicePoll, ?_, ?_, ?_, fun a => ?_⟩⟩
  · exact (State.memRead_kbsr s).trans (by rw [State.devicePoll_kbsr, if_pos hinput])
  · rw [State.devicePoll_nil hinput, State.memWrite_restore_mem]
  · rw [State.devicePoll_nil hinput]
    exact State.stored_memWrite s kbsrAddr a _
  · have hkey : s.input ≠ [] := by simp [hinput]
    exact (State.memRead_kbsr s).trans (by rw [State.devicePoll_kbsr, if_neg hkey, keyReady])
  · rw [State.devicePoll_cons hinput, ← hinput]
    rfl
  · rw [State.devicePoll_input, hinput, List.tail_cons]
  · have hne : kbsrAddr ≠ kbdrAddr := by decide
    rw [State.devicePoll_cons hinput, State.stored_memWrite, State.stored_memWrite]
    by_cases ha : a = kbsrAddr
    · subst ha
      rw [if_neg hne]
      rfl
    · have ha' : a ≠ 0xFE00#16 := ha
      rw [if_neg ha, if_neg ha']
      rfl

/-- Settles O13 (R58): the two readings agree away from KBSR. -/
theorem strReadFollowsTheParameter : Obligations.StrReadFollowsTheParameter := by
  intro s a
  exact State.strRead_eq s a

/-! ### The branch test (40_cycle.md R108) -/

/-- Settles O8 (R108): each condition's code selects one bit of the mask. -/
theorem branchTakenTestsTheConditionBit : Obligations.BranchTakenTestsTheConditionBit := by
  intro nzp c
  revert nzp
  cases c <;> decide

/-! ### JSRR and RES -/

/-- Settles O20 (42_control.md R134): BaseR is read in the state whose R7 is the return
address. -/
theorem jsrrLinksAndJumps : Obligations.JsrrLinksAndJumps := by
  refine ⟨fun w hop hmode => ?_, fun s base => ?_⟩
  · have hclear : ¬ w.extractLsb' 11 1 = 1#1 := by
      rw [extractLsb'_one_eq_one_iff, hmode]
      exact Bool.false_ne_true
    simp only [decode_of_opcode, hop, if_neg hclear]
  · rw [exec_jsrr, State.reg_link, State.jump_eq, State.link_eq]

/-- Settles O29 (45_reserved.md R181): the RES format names no operand, and RES answers the state
it was given. -/
theorem resChangesNothing : Obligations.ResChangesNothing := by
  refine ⟨fun w hop => ?_, fun s => exec_res s⟩
  rw [decode_of_opcode, hop]

/-! ### TRAP's dispatch and the wait (44_trap.md R161, R168, R171) -/

/-- TRAP with a vector that selects no service is its entry alone (R168). -/
theorem exec_trap_unknown {v : BitVec 8} (h : isServiceVector v = false) (s : State) :
    exec (.trap v) s = .next s.trapEntry := by
  have n : ∀ k : BitVec 8, isServiceVector k = true → v ≠ k := fun k hk e => by
    rw [e, hk] at h; exact Bool.noConfusion h
  rw [exec_trap, if_neg (n 0x20#8 rfl), if_neg (n 0x21#8 rfl), if_neg (n 0x22#8 rfl),
    if_neg (n 0x23#8 rfl), if_neg (n 0x24#8 rfl), if_neg (n 0x25#8 rfl)]

/-- Settles O30 (R161, R168): decoding and execution select the service by the same six
vectors. -/
theorem trapDispatchesByVector : Obligations.TrapDispatchesByVector := by
  refine ⟨fun w hop => ?_, fun s => ⟨rfl, rfl, rfl, rfl, rfl, rfl⟩, fun s v hv => ?_⟩
  · simp only [decode_of_opcode, hop, selectTrap_eq]
  · have hunknown : isServiceVector v = false := by
      simp only [isServiceVector, Bool.and_eq_false_iff, decide_eq_false_iff_not]
      bv_omega
    rw [exec_trap_unknown hunknown, State.trapEntry_eq]

/-- Settles O35 (R171): neither the entry nor the prompt supplies input, so the read waits. -/
theorem getcAndInWaitWithoutInput : Obligations.GetcAndInWaitWithoutInput := by
  intro s hinput
  constructor
  · rw [exec_getc, State.getcRead_nil (s := s.trapEntry) hinput, State.trapEntry_eq]
  · rw [exec_inp, State.inRead_nil (s := s.trapEntry.writeChars Config.inPrompt) hinput,
      State.writeChars_eq, State.trapEntry_eq]

end Sys2Proof.Machine

/-! ## Proofs: the outcomes of a step (40_cycle.md, 60_exceptions.md) -/

namespace Sys2Proof.Machine

/-! ### Fetch and execution in one step (R101, R112) -/

/-- Settles O48 (R101, R102, R112): away from KBSR the fetch reads the cell and moves `pc` alone;
at KBSR its read polls first. -/
theorem stepRunsTheDecodedInstruction : Obligations.StepRunsTheDecodedInstruction := by
  intro s hrun hw
  refine ⟨fun hpc => ?_, fun hpc => ?_⟩
  · rw [step_running hrun hw, State.fetch_pure hpc, State.jump_eq]
  · have hread : s.memRead s.pc = (s.devicePoll.stored kbsrAddr, s.devicePoll) := by
      rw [hpc]; exact State.memRead_kbsr s
    rw [step_running hrun hw, State.fetch_fst, State.fetch_snd, hread, State.jump_eq, hpc]
    rfl

/-- Settles O55: the placed word is in the cell that the next fetch reads, which is not KBSR. -/
theorem placedWordRunsNext : Obligations.PlacedWordRunsNext := by
  intro s w
  have hplaced : s.withFetchWord 16 w.toNat =
      { s.memWrite (if s.pc = kbsrAddr then 0x3000#16 else s.pc) w with
        pc := if s.pc = kbsrAddr then 0x3000#16 else s.pc, running := true,
        awaitInput := .none } := by
    rw [State.withFetchWord, Nat.mod_eq_of_lt w.isLt, BitVec.ofNat_toNat, BitVec.setWidth_eq]
  have hpc : (if s.pc = kbsrAddr then 0x3000#16 else s.pc) ≠ kbsrAddr := by
    split
    · decide
    · assumption
  rw [hplaced, (stepRunsTheDecodedInstruction _ rfl rfl).1 hpc]
  congr 2
  exact (State.stored_memWrite s _ _ w).trans (if_pos rfl)

/-- A store into the cell at `pc` is what the next fetch reads there, away from KBSR (R56). -/
theorem State.fetch_fst_memWrite {s : State} (hpc : s.pc ≠ kbsrAddr) (a v : Word) :
    (s.memWrite a v).fetch.1 = if a = s.pc then v else s.stored s.pc := by
  rw [State.fetch_pure (s := s.memWrite a v) hpc]
  exact (State.stored_memWrite s a s.pc v).trans (if_congr eq_comm rfl rfl)

/-- Settles O54 (20_memory.md R56): each store is one memory write in a state whose `pc` is the
next word's address, and the next fetch reads that cell after it. -/
theorem nextFetchSeesTheStore : Obligations.NextFetchSeesTheStore := by
  intro s sr base off9 off6 hrun hw hpc hnext
  have hstep := (stepRunsTheDecodedInstruction s hrun hw).1 hpc
  refine ⟨fun hst => ?_, fun p r hsti hptr => ?_, fun hstr => ?_⟩
  · rw [hstep, hst, exec_st]
    refine ⟨_, rfl, rfl, ?_⟩
    exact State.fetch_fst_memWrite (s := { s with pc := s.pc + 1#16 }) hnext _ _
  · have quiet := Quiet.memRead { s with pc := s.pc + 1#16 } (s.pc + 1#16 + off9.signExtend 16)
    rw [hptr] at quiet
    have hrpc : r.pc = s.pc + 1#16 := quiet.pc
    rw [hstep, hsti, exec_sti, State.indirect9_of_memRead hptr]
    refine ⟨_, rfl, hrpc, ?_⟩
    rw [State.fetch_fst_memWrite (hrpc ▸ hnext), hrpc]
    rfl
  · rw [hstep, hstr, exec_str]
    refine ⟨_, rfl, rfl, ?_⟩
    exact State.fetch_fst_memWrite (s := { s with pc := s.pc + 1#16 }) hnext _ _

/-! ### Where a step stops (R190, R191) -/

/-- A decoded instruction stops as unterminated where it is a string service whose cells, read
directly, hold no terminator (44_trap.md R170). -/
theorem exec_decode_unterminated_iff (w : Word) (s : State) :
    exec (decode w) s = .fault .stringUnterminated ↔
      Config.trapStrDeviceRead = false ∧
        ((decode w = .puts ∧ ∀ a, s.stored a ≠ 0x0000#16) ∨
          (decode w = .putsp ∧ ∀ a, (s.stored a).extractLsb' 0 8 ≠ 0#8)) := by
  obtain ⟨hputs, -, hputsp, -⟩ := stringServicesCompleteOrAreUnterminated s
  have hwf := decode_wellFormed w
  cases hi : decode w
  case puts => simpa using hputs
  case putsp => simpa using hputsp
  case trap v =>
    rw [hi] at hwf
    rw [exec_trap_unknown (by simpa [Instr.wellFormed] using hwf)]
    simp
  all_goals exact iff_of_false nofun (by simp)

/-- With a character there, whatever waits goes on. -/
theorem resumeWait_of_input {s : State} (h : s.input ≠ []) : ∃ t, resumeWait s = .next t := by
  obtain ⟨c, rest, hinput⟩ := List.exists_cons_of_ne_nil h
  rw [resumeWait_cons hinput]
  cases s.awaitInput <;> exact ⟨_, rfl⟩

/-- Settles O49 (R190, R191): a halted machine has no step, a waiting one goes on exactly where
`input` is not empty, and every other one executes, which stops as unterminated or completes. -/
theorem stepStopsOnlyWhereTheSpecNamesAnOutcome :
    Obligations.StepStopsOnlyWhereTheSpecNamesAnOutcome := by
  intro s
  cases hrun : s.running with
  | false => simp [step_halted hrun]
  | true =>
    by_cases hw : s.awaitInput = .none
    · have hstops := exec_decode_unterminated_iff s.fetch.1 s.fetch.2
      have hgoes := not_iff_not.2 hstops
      push Not at hgoes
      rw [step_running hrun hw]
      obtain ⟨t, e⟩ | e := exec_next_or_unterminated (decode s.fetch.1) s.fetch.2
      · rw [e] at hstops hgoes ⊢
        exact ⟨nofun, by simp, by simp [hw], by rw [hstops]; simp [hw],
          fun _ => ⟨rfl, fun h => absurd hw h, fun _ => hgoes.1 nofun⟩, fun _ => ⟨t, rfl⟩⟩
      · rw [e] at hstops hgoes ⊢
        exact ⟨nofun, by simp, by simp [hw], by rw [hstops]; simp [hw],
          fun ⟨_, h⟩ => (nomatch h), fun ⟨_, _, h⟩ => absurd rfl (hgoes.2 (h hw))⟩
    · rw [step_waiting hrun hw]
      by_cases hinput : s.input = []
      · simp [resumeWait_nil hinput, hw, hinput]
      · obtain ⟨t, e⟩ := resumeWait_of_input hinput
        simp [e, hw, hinput]

/-! ### The wait and its end (44_trap.md R171) -/

theorem decode_zero : decode 0x0000#16 = .br 0b000#3 0b000000000#9 := by decide

/-- A fetch that finds GETC or IN while no input is there is not from KBSR, whose poll would have
left a zero word there. -/
theorem pc_ne_kbsrAddr_of_fetch {s : State} (hinput : s.input = [])
    (h : decode s.fetch.1 = .getc ∨ decode s.fetch.1 = .inp) : s.pc ≠ kbsrAddr := by
  intro hpc
  have hzero : s.fetch.1 = 0x0000#16 := by
    rw [State.fetch_fst, hpc, State.memRead_kbsr, State.devicePoll_kbsr, if_pos hinput]
  rw [hzero, decode_zero] at h
  rcases h with h | h <;> cases h

/-- GETC or IN that finds no character waits, and once one is appended goes on to the state it
would have answered with that one there. -/
theorem exec_wait_then_input {i : Instr} (hi : i = .getc ∨ i = .inp) {s : State}
    (hinput : s.input = []) :
    ∃ t, exec i s = .next t ∧ t.running = s.running ∧ t.awaitInput ≠ .none ∧ t.input = [] ∧
      ∀ c cs, resumeWait (t.hostAppend (c :: cs)) = exec i (s.hostAppend (c :: cs)) := by
  obtain ⟨hgetc, hinp⟩ := getcAndInWaitWithoutInput s hinput
  have happended (c : Byte) (cs : List Byte) : (s.hostAppend (c :: cs)).input = c :: cs := by
    rw [State.hostAppend_input, hinput, List.nil_append]
  rcases hi with rfl | rfl
  · refine ⟨_, hgetc, rfl, nofun, hinput, fun c cs => ?_⟩
    rw [getcReadsOneCharacter _ c cs (happended c cs)]
    exact resumeWait_getc rfl (happended c cs)
  · refine ⟨_, hinp, rfl, nofun, hinput, fun c cs => ?_⟩
    rw [inPromptsReadsAndEchoes _ c cs (happended c cs)]
    exact resumeWait_inp rfl (happended c cs)

/-- Settles O36 (R171): the fetch is not from KBSR, so the host's append before it or after it is
the same append, and the service ends as if its character had been there. -/
theorem waitingGivesWhatEarlyInputGives : Obligations.WaitingGivesWhatEarlyInputGives := by
  intro s hrun hw hinput hservice
  have hpc := pc_ne_kbsrAddr_of_fetch hinput hservice
  have hfetch := State.fetch_pure hpc
  have hfetched : s.fetch.2.input = [] := by rw [hfetch]; exact hinput
  obtain ⟨t, hexec, hrunning, hwait, hempty, hresume⟩ := exec_wait_then_input hservice hfetched
  have hrunt : t.running = true := hrunning.trans ((Quiet.fetch s).running.trans hrun)
  refine ⟨t, (step_running hrun hw).trans hexec, ?_, fun c cs => ?_⟩
  · rw [step_waiting hrunt hwait, resumeWait_nil hempty]
  · have hfetchAppend := State.fetch_pure (s := s.hostAppend (c :: cs)) hpc
    rw [step_waiting (s := t.hostAppend (c :: cs)) hrunt hwait, hresume,
      step_running (s := s.hostAppend (c :: cs)) hrun hw, hfetch, hfetchAppend]
    rfl

end Sys2Proof.Machine

/-! ## Proofs: reset and the images a load refuses (70_reset_and_hazards.md) -/

namespace Sys2Proof.Machine

/-! ### Reset and the start of a run (R210) -/

theorem boot_of_ok {images : List (Option (List Byte))} {m : Memory}
    (h : loadImages images [] = .ok m) (gpr : Vector Word 8) (input : List Byte) :
    boot gpr input images = .ok { State.resetWith gpr input with mem := m } := by
  rw [boot, h]

theorem boot_of_error {images : List (Option (List Byte))} {e : LoadError}
    (h : loadImages images [] = .error e) (gpr : Vector Word 8) (input : List Byte) :
    boot gpr input images = .error e := by
  rw [boot, h]

/-- Settles O56 (R210, 10_state.md R37): the listed values are those of the reset state's record,
and a run starts from it with what the images load into its empty memory. -/
theorem resetLeavesTheListedValues : Obligations.ResetLeavesTheListedValues := by
  refine ⟨fun gpr input => ⟨rfl, rfl, rfl, rfl, rfl, rfl, rfl, fun _ => rfl⟩,
    fun gpr input images s => ⟨boot_ok, ?_⟩, rfl⟩
  rintro ⟨m, hload, rfl⟩
  exact boot_of_ok hload gpr input

/-! ### What one image's load answers (R214, R215) -/

/-- The load of a stream that has an origin word: its length decides first, then its fit. -/
theorem loadImage_cons_cons (hi lo : Byte) (rest : List Byte) (m : Memory) :
    loadImage (hi :: lo :: rest) m =
      if rest.length % 2 = 1 then .error .oddLength
      else if hi.toNat * 256 + lo.toNat + rest.length / 2 ≤ 65536 then
        .ok (placeWords m (bigEndian hi lo).toNat (imageWords rest))
      else .error .tooLong := by
  have hodd : (hi :: lo :: rest).length % 2 = rest.length % 2 := Nat.add_mod_right rest.length 2
  have htwo : ¬ (hi :: lo :: rest).length < 2 := by simp
  rw [loadImage, hodd, if_neg htwo, imageWords]
  dsimp only
  rw [toNat_bigEndian, imageWords_length]

/-- The streams that one load refuses: no origin word, an odd length, more words than fit. -/
theorem loadImage_error_iff (m : Memory) (bytes : List Byte) :
    (∃ e, loadImage bytes m = .error e) ↔
      bytes.length < 2 ∨ bytes.length % 2 = 1 ∨
        ((bytes.getD 0 0).toNat * 256 + (bytes.getD 1 0).toNat)
          + (bytes.length / 2 - 1) > 65536 := by
  match bytes with
  | [] => exact iff_of_true ⟨_, rfl⟩ (.inl (by decide))
  | [_] => exact iff_of_true ⟨_, rfl⟩ (.inl (by simp))
  | hi :: lo :: rest =>
    have hwords : (rest.length + 1 + 1) / 2 - 1 = rest.length / 2 := by omega
    rw [loadImage_cons_cons]
    simp only [List.length_cons, List.getD_cons_zero, List.getD_cons_succ, hwords]
    split_ifs with hodd hfits
    · exact iff_of_true ⟨_, rfl⟩ (by omega)
    · exact iff_of_false nofun (by omega)
    · exact iff_of_true ⟨_, rfl⟩ (by omega)

/-! ### Several images (R216) -/

theorem loadImages_cons_ok {bytes : List Byte} {m m1 : Memory} (h : loadImage bytes m = .ok m1)
    (rest : List (Option (List Byte))) :
    loadImages (some bytes :: rest) m = loadImages rest m1 := by
  rw [loadImages, h]

theorem loadImages_cons_error {bytes : List Byte} {m : Memory} {e : LoadError}
    (h : loadImage bytes m = .error e) (rest : List (Option (List Byte))) :
    loadImages (some bytes :: rest) m = .error e := by
  rw [loadImages, h]

/-- An unreadable file ends the load, unless an image before it has ended it. -/
theorem loadImages_error_of_none_mem {images : List (Option (List Byte))} (h : none ∈ images)
    (m : Memory) : ∃ e, loadImages images m = .error e := by
  induction images generalizing m with
  | nil => cases h
  | cons image rest ih =>
    cases image with
    | none => exact ⟨.unreadable, rfl⟩
    | some bytes =>
      cases hload : loadImage bytes m with
      | error e => exact ⟨e, loadImages_cons_error hload rest⟩
      | ok m1 =>
        rw [loadImages_cons_ok hload]
        exact ih (by simpa using h) m1

theorem boot_eq_error_iff (gpr : Vector Word 8) (input : List Byte)
    (images : List (Option (List Byte))) (e : LoadError) :
    boot gpr input images = .error e ↔ loadImages images [] = .error e := by
  refine ⟨fun h => ?_, fun h => boot_of_error h gpr input⟩
  cases hload : loadImages images [] with
  | ok m => rw [boot_of_ok hload] at h; cases h
  | error e' => rw [boot_of_error hload] at h; cases h; rfl

/-- Settles O58 (R215, R216): a stream with an origin word is refused by its parity or its fit,
and a list of images by the first that fails. -/
theorem loadRefusesExactlyTheBadImages : Obligations.LoadRefusesExactlyTheBadImages := by
  refine ⟨loadImage_error_iff, fun _ => rfl, fun _ _ => rfl,
    fun _ _ rest _ h => loadImages_cons_error h rest,
    fun _ _ _ rest h => loadImages_cons_ok h rest, boot_eq_error_iff,
    fun gpr input images hnone => ?_⟩
  obtain ⟨e, he⟩ := loadImages_error_of_none_mem hnone []
  exact ⟨e, boot_of_error he gpr input⟩

end Sys2Proof.Machine
